-- ==== Sys2Proof/Word.lean ====
section
/-! DEFINITION. The word types of the LEB128 codec block (spec 00_scope.md R6, R8) and the two variants (R3). -/

namespace Sys2Proof

/-- The coded integer, `W = 64` bits in both variants (R6). -/
abbrev Word := BitVec 64

/-- A byte of the encoding and of the memory (R6, R40). -/
abbrev Byte := BitVec 8

/-- A payload: one 7-bit group of a value (R60). -/
abbrev Group := BitVec 7

/-- The two variants of the codec, and no others (R3): unsigned `ULEB128` and signed `SLEB128`. -/
inductive Variant where
  | uleb
  | sleb
  deriving DecidableEq, Repr

/-- `ONES64`, the vector of 64 ones (R10): the value -1 when read as signed (R9). -/
abbrev ones64 : Word := BitVec.allOnes 64

end Sys2Proof
end

