-- ==== Sys2Proof/Config.lean ====
section
/-! DEFINITION. The free values of the block: every value the spec calls `any` (00_scope.md R11; 93_implementation_defined.md
U1, U5, U6, U12). Each is a constant with no body, so nothing can be proved of its value. The first argument is the number of
the draw (`State.draws`), which moves on at every draw, so two draws are never the same constant. Notes 4 to 7. -/

namespace Sys2Proof

/-- Byte at an address of a destination window after `BufferTooSmall` or after a `WRITE_INTO` cut by reset
(R50, R171): arguments are the draw and the address. Note 4. -/
opaque Config.freeByte : Nat → Nat → Byte

/-- `RLEN` after an error (R24, R146) and after a reset (R35). Note 5. -/
opaque Config.freeRlen : Nat → BitVec 4

/-- Bit `C.TAG` after a reset (R35). Note 6. -/
opaque Config.freeTag : Nat → BitVec 1

/-- `C.VAL` after a reset (R35). Note 6. -/
opaque Config.freeVal : Nat → Word

/-- `RVAL` after a reset (R35). Note 6. -/
opaque Config.freeRval : Nat → Word

/-- `MODE` after a reset (R35). Note 6. -/
opaque Config.freeMode : Nat → BitVec 1

/-- `REM` after a reset (R35) or after a `WRITE_INTO` run at the transaction level (R186 leaves it open). Notes 6, 7. -/
opaque Config.freeRem : Nat → Word

/-- `ACC` after a reset (R35) or after a `READ_FROM` run at the transaction level. Notes 6, 7. -/
opaque Config.freeAcc : Nat → Word

/-- `IDX` after a reset (R35): any 4-bit value. Note 6. -/
opaque Config.freeIdx : Nat → BitVec 4

/-- `IDX` after a `WRITE_INTO` or `READ_FROM` run at the transaction level: R27 bounds it by 10 and says no more. Note 7. -/
opaque Config.freeEndIdx : Nat → Fin 11

end Sys2Proof
end

