-- ==== Sys2Proof/Syntax.lean ====
section
/-! DEFINITION. The instructions of the block: one constructor per row of spec/opcode_table.json. The eight commands carry
the values of the operand ports they use (10_state.md R23, 30_encoding.md R75); the four micro-operations carry their inputs
(40_chunker.md R86 to R90); the two byte forms carry their payload (R60, R61). Addresses and sizes are natural numbers (R6). -/

namespace Sys2Proof

inductive Instr where
  /-- `ULEB128.FROM` (R100): wrap `OPERAND` as an unsigned codec. -/
  | uleb128From (operand : Word)
  /-- `SLEB128.FROM` (R120): wrap `OPERAND` as a signed codec. -/
  | sleb128From (operand : Word)
  /-- `ULEB128.WRITE_INTO` (R102): encode the codec into the window `[base, base + cap)`. -/
  | uleb128WriteInto (base cap : Nat)
  /-- `SLEB128.WRITE_INTO` (R122). -/
  | sleb128WriteInto (base cap : Nat)
  /-- `ULEB128.READ_FROM` (R104): decode one value from the window `[base, base + len)`. -/
  | uleb128ReadFrom (base len : Nat)
  /-- `SLEB128.READ_FROM` (R124). -/
  | sleb128ReadFrom (base len : Nat)
  /-- `ULEB128.VALUE` (R106): extract the native integer. -/
  | uleb128Value
  /-- `SLEB128.VALUE` (R126). -/
  | sleb128Value
  /-- `CHUNK.U` (R86): the unsigned chunk step on `rem`. -/
  | chunkU (rem : Word)
  /-- `CHUNK.S` (R87): the signed chunk step on `rem`. -/
  | chunkS (rem : Word)
  /-- `ACCUM` (R89): accumulate the group of byte `b` at index `idx`, 0 to 9. -/
  | accum (acc : Word) (idx : Nat) (b : Byte)
  /-- `SEXT` (R90): sign-extend after `n` bytes, 1 to 10, `p` the terminator's payload. -/
  | sext (acc : Word) (n : Nat) (p : Group)
  /-- `BYTE.CONTINUATION` (R61): the byte `1ppppppp`. -/
  | byteContinuation (p : Group)
  /-- `BYTE.TERMINATOR` (R61): the byte `0ppppppp`. -/
  | byteTerminator (p : Group)
  deriving DecidableEq, Repr

end Sys2Proof
end

