-- ==== Sys2Proof/WellFormed.lean ====
section
/-! DEFINITION. Well-formed instructions: the ranges the spec gives the two counted inputs, `idx` of `ACCUM`, 0 to 9 (R89), and
`n` of `SEXT`, 1 to 10 (R90). Every other field takes every value of its type (30_encoding.md R61, R76). -/

namespace Sys2Proof

def Instr.wf : Instr → Bool
  | .uleb128From _ => true
  | .sleb128From _ => true
  | .uleb128WriteInto _ _ => true
  | .sleb128WriteInto _ _ => true
  | .uleb128ReadFrom _ _ => true
  | .sleb128ReadFrom _ _ => true
  | .uleb128Value => true
  | .sleb128Value => true
  | .chunkU _ => true
  | .chunkS _ => true
  | .accum _ idx _ => decide (idx ≤ 9)
  | .sext _ n _ => decide (1 ≤ n ∧ n ≤ 10)
  | .byteContinuation _ => true
  | .byteTerminator _ => true

end Sys2Proof
end

