-- ==== Sys2Proof/Decode.lean ====
section
/-! DEFINITION. Decoding and encoding. Three formats reach the block by three routes (spec/opcode_table.json; 30_encoding.md):
a command is a 3-bit code on port `CMD` with its operands on their own ports (R23, R75, R76); a micro-operation is a 2-bit
select code `UOP` with the inputs of its function unit (R77); a byte of the data format is eight bits of memory (R60, R61). -/

namespace Sys2Proof

/-- The host's ports with one command (10_state.md R23). A command looks only at the ports it uses. -/
structure CmdPorts where
  cmd : BitVec 3
  operand : Word
  base : Nat
  cap : Nat
  len : Nat
  deriving DecidableEq, Repr

/-- The inputs of the function units (40_chunker.md), with the select code of R77. `word` is `rem` or `acc`; `index` is the
byte index `IDX` before the byte is counted (`idx` of `ACCUM`; `n` of `SEXT` is `index + 1`, as R93 uses it). How the inputs
travel is the model's own packaging: note 10. -/
structure UnitPorts where
  uop : BitVec 2
  word : Word
  index : BitVec 4
  byte : Byte
  payload : Group
  deriving DecidableEq, Repr

/-- The code of an instruction, in one of the three formats of the opcode table. -/
inductive Code where
  | cmd (p : CmdPorts)
  | micro (u : UnitPorts)
  | byte (b : Byte)
  deriving DecidableEq, Repr

/-- Why a code is no instruction. -/
inductive Reject where
  /-- `ACCUM` or `SEXT` at a byte index above 9, which "never occurs" (R89). -/
  | indexOutOfRange (index : BitVec 4)
  deriving DecidableEq, Repr

/-! Fields -/

/-- Bits 2:1 of a command code, `SHAPE` (R76). -/
def cmdShape (cmd : BitVec 3) : BitVec 2 := cmd.extractLsb' 1 2

/-- Bit 0 of a command code, `S`: 0 unsigned, 1 signed (R76). -/
def cmdSigned (cmd : BitVec 3) : Bool := cmd.getLsbD 0

/-- Bit 7 of an encoded byte, `CONT` (R60). -/
def contOf (b : Byte) : Bool := b.getLsbD 7

/-- Bits 6:0 of an encoded byte, `PAYLOAD` (R60). -/
def payloadOf (b : Byte) : Group := b.extractLsb' 0 7

/-- The byte `{cont, p}` (R60, R85). -/
def mkByte (cont : Bool) (p : Group) : Byte := BitVec.ofBool cont ++ p

/-! Decoding -/

/-- The command set (R75, R76). All eight codes are assigned, so nothing is rejected. -/
def decodeCmd (p : CmdPorts) : Instr :=
  if cmdShape p.cmd = 0b00#2 then
    (if cmdSigned p.cmd then .sleb128From p.operand else .uleb128From p.operand)
  else if cmdShape p.cmd = 0b01#2 then
    (if cmdSigned p.cmd then .sleb128WriteInto p.base p.cap else .uleb128WriteInto p.base p.cap)
  else if cmdShape p.cmd = 0b10#2 then
    (if cmdSigned p.cmd then .sleb128ReadFrom p.base p.len else .uleb128ReadFrom p.base p.len)
  else
    (if cmdSigned p.cmd then .sleb128Value else .uleb128Value)

/-- The micro-operations (R77). -/
def decodeUnit (u : UnitPorts) : Except Reject Instr :=
  if u.uop = 0b00#2 then .ok (.chunkU u.word)
  else if u.uop = 0b01#2 then .ok (.chunkS u.word)
  else if 9 < u.index.toNat then .error (.indexOutOfRange u.index)
  else if u.uop = 0b10#2 then .ok (.accum u.word u.index.toNat u.byte)
  else .ok (.sext u.word (u.index.toNat + 1) u.payload)

/-- The two byte forms (R61): all 256 byte values are one or the other. -/
def decodeByte (b : Byte) : Instr :=
  if contOf b then .byteContinuation (payloadOf b) else .byteTerminator (payloadOf b)

/-- The decoder, total on every code. -/
def decode : Code → Except Reject Instr
  | .cmd p => .ok (decodeCmd p)
  | .micro u => decodeUnit u
  | .byte b => .ok (decodeByte b)

/-! Encoding -/

/-- The ports with a command code, a port the command does not use at 0. -/
def cmdCode (cmd : BitVec 3) (operand : Word) (base cap len : Nat) : Code :=
  .cmd { cmd := cmd, operand := operand, base := base, cap := cap, len := len }

/-- The inputs of a function unit with a select code, an input the unit does not use at 0. -/
def microCode (uop : BitVec 2) (word : Word) (index : Nat) (byte : Byte) (payload : Group) : Code :=
  .micro { uop := uop, word := word, index := BitVec.ofNat 4 index, byte := byte, payload := payload }

/-- The encoder (R75, R77, R61). -/
def encode : Instr → Code
  | .uleb128From x => cmdCode 0b000#3 x 0 0 0
  | .sleb128From x => cmdCode 0b001#3 x 0 0 0
  | .uleb128WriteInto base cap => cmdCode 0b010#3 0 base cap 0
  | .sleb128WriteInto base cap => cmdCode 0b011#3 0 base cap 0
  | .uleb128ReadFrom base len => cmdCode 0b100#3 0 base 0 len
  | .sleb128ReadFrom base len => cmdCode 0b101#3 0 base 0 len
  | .uleb128Value => cmdCode 0b110#3 0 0 0 0
  | .sleb128Value => cmdCode 0b111#3 0 0 0 0
  | .chunkU rem => microCode 0b00#2 rem 0 0 0
  | .chunkS rem => microCode 0b01#2 rem 0 0 0
  | .accum acc idx b => microCode 0b10#2 acc idx b 0
  | .sext acc n p => microCode 0b11#2 acc (n - 1) 0 p
  | .byteContinuation p => .byte (mkByte true p)
  | .byteTerminator p => .byte (mkByte false p)

/-- The ports a command or unit does not use, set to 0: what is left of a code that its instruction looks at (R23, R33). -/
def usedPorts : Code → Code
  | .cmd p =>
    if cmdShape p.cmd = 0b00#2 then cmdCode p.cmd p.operand 0 0 0
    else if cmdShape p.cmd = 0b01#2 then cmdCode p.cmd 0 p.base p.cap 0
    else if cmdShape p.cmd = 0b10#2 then cmdCode p.cmd 0 p.base 0 p.len
    else cmdCode p.cmd 0 0 0 0
  | .micro u =>
    if u.uop = 0b10#2 then microCode u.uop u.word u.index.toNat u.byte 0
    else if u.uop = 0b11#2 then microCode u.uop u.word u.index.toNat 0 u.payload
    else microCode u.uop u.word 0 0 0
  | .byte b => .byte b

/-! Words as the opcode table numbers them -/

/-- The code a word of the opcode table stands for, every port it gives no bits at 0. The three formats share small
numbers, so the width tells them apart: 2 bits are a `UOP`, 3 bits a `CMD`. At any other width (a row's bits in whole bytes) a
word below 8 is read as the command the host can issue and the rest as a byte of the data format: note 11. -/
def tableCode (nbits w : Nat) : Option Code :=
  if nbits = 2 then
    (if w < 4 then some (microCode (BitVec.ofNat 2 w) 0 0 0 0) else none)
  else if w < 8 then some (cmdCode (BitVec.ofNat 3 w) 0 0 0 0)
  else if nbits = 3 then none
  else if w < 256 then some (.byte (BitVec.ofNat 8 w))
  else none

def decodeTableWord (nbits w : Nat) : Option Instr :=
  match tableCode nbits w with
  | none => none
  | some c =>
    match decode c with
    | .ok i => some i
    | .error _ => none

/-! Assembler syntax -/

/-- `imm` of `ULEB128.FROM imm` and `SLEB128.FROM imm` placed on `OPERAND` (R78): the vector `v` with `u(v) = imm` or
`s(v) = imm`; `none` outside the range the syntax admits. -/
def immOperand (v : Variant) (imm : Int) : Option Word :=
  match v with
  | .uleb => if 0 ≤ imm ∧ imm < 2 ^ 64 then some (BitVec.ofInt 64 imm) else none
  | .sleb => if -2 ^ 63 ≤ imm ∧ imm < 2 ^ 63 then some (BitVec.ofInt 64 imm) else none

end Sys2Proof
end

