-- ==== Sys2Proof/Machine/State.lean ====
section
/-! DEFINITION. The state of the block and of the memory it works on (spec 10_state.md, 20_memory.md), the reasons a step can
stop, and the state after reset. Plain data only. -/

namespace Sys2Proof.Machine

/-- The byte memory `MEM` (R40): the listed (address, byte) pairs, addresses rising, none equal to what an unlisted
address reads as (`Memory.wf`, Machine/Memory.lean). -/
abbrev Memory := List Host.Cell

/-- The codec register `C` (R20). -/
structure Codec where
  /-- `C.VLD`: a constructed codec is held. -/
  vld : Bool
  /-- `C.TAG`: the variant held. -/
  tag : Variant
  /-- `C.VAL`: the wrapped integer. -/
  val : Word
  deriving DecidableEq, Repr

/-- `PHASE` of the micro-sequencer (R30). -/
inductive Phase where
  | idle
  | enc
  | dec
  deriving DecidableEq, Repr

/-- The outputs a function unit delivered (R86, R87, R89, R90). The model's own: the spec has wires here (R26, R85). Note 9. -/
structure UnitOut where
  group : Group
  /-- `rem'` -/
  rem : Word
  last : Bool
  byte : Byte
  /-- `acc'` -/
  acc : Word
  deriving DecidableEq, Repr

/-- What the host does to the block and to the memory (R183), and the micro-steps the sequencer is given (R182). The
model's own list of inputs: note 3. -/
inductive Input where
  /-- Issue a command at the transaction level: it runs to its end in this one step (R7). -/
  | issue (p : CmdPorts)
  /-- Issue a command to the reference micro-sequencer: a `WRITE_INTO` or `READ_FROM` is only accepted here (R31). -/
  | accept (p : CmdPorts)
  /-- Give the micro-sequencer one micro-step (R92, R93). -/
  | tick
  /-- Give a function unit its inputs (R85 to R90). -/
  | unit (u : UnitPorts)
  /-- The host writes a byte of its memory. -/
  | hostWrite (a : Nat) (b : Byte)
  /-- The host reads a byte of its memory. -/
  | hostRead (a : Nat)
  /-- The host resets the block (R170, R171). -/
  | reset
  deriving DecidableEq, Repr

structure State where
  /-- `AW`, the width of an address (R6): configuration, never written. Note 2. -/
  aw : Nat
  /-- `C` (R20). -/
  c : Codec
  /-- `STAT` (R24, R25). -/
  stat : BitVec 2
  /-- `RLEN` (R24). -/
  rlen : BitVec 4
  /-- `RVAL` (R24). -/
  rval : Word
  /-- `PHASE` (R30). -/
  phase : Phase
  /-- `MODE` (R30). -/
  mode : Variant
  /-- `REM` (R30). -/
  rem : Word
  /-- `ACC` (R30). -/
  acc : Word
  /-- `IDX` (R27, R30). -/
  idx : BitVec 4
  /-- `BASE`, `CAP` and `LEN` as the host holds them while the micro-sequencer runs a command (R23, R92, R93). Note 8. -/
  portBase : Nat
  portCap : Nat
  portLen : Nat
  /-- `MEM` (R32, R40). -/
  mem : Memory
  /-- Outputs of the function units. The model's own: note 9. -/
  unitOut : UnitOut
  /-- What the host will do, first move first. The model's own: note 3. -/
  inputs : List Input
  /-- Number of the next draw of a free value. The model's own: note 4. -/
  draws : Nat
  deriving DecidableEq, Repr

/-- Why the machine stops with a fault. -/
inductive Fault where
  /-- The host's own read or write names an address outside `MEM` (R40). Raised by `hostWrite` and `hostRead`; the block itself
  raises no fault (R144). Safe: nothing is claimed of such an access. -/
  | noSuchAddress (a : Nat)
  deriving DecidableEq, Repr

/-- Why a step has no meaning. -/
inductive Refusal where
  /-- `exec` on an instruction with no meaning yet. No arm raises it. Safe. -/
  | notModelled (mnemonic : String)
  /-- A command issued while another runs, which the host must not do (R7, R183). Raised by the eight commands. Safe. -/
  | busy
  /-- `WRITE_INTO` or `VALUE` while `C.VLD = 0` (R34, R153). Safe. -/
  | noCodec
  /-- `WRITE_INTO` or `VALUE` of the variant that `C.TAG` is not (R34, R101, R121, R153). Safe. -/
  | wrongVariant
  /-- A window that does not lie inside the address space (R42, R153). Raised by `WRITE_INTO` and `READ_FROM`. Safe. -/
  | windowWraps
  /-- `ACCUM` with `idx` above 9 or `SEXT` with `n` outside 1 to 10, which never occur (R89, R90). Raised by the two
  micro-operations and by the decoding of their inputs. Safe. -/
  | unitInput
  /-- A byte of the data format executed while no `READ_FROM` runs: it is "data format, not a command" (R61). Raised by the
  two byte forms. Safe. -/
  | byteOutsideDecode
  /-- The host touches the window of the running command (R176): "a model gives no step". Raised by `hostWrite` and
  `hostRead`. Safe. -/
  | windowOwned
  deriving DecidableEq, Repr

/-- The state right after reset (R35, R170): `C.VLD = 0`, `STAT = 0`, `PHASE = IDLE`; every other register is unspecified
there and holds 0 here (note 6); the memory lists nothing (note 12) and the host has no move pending (note 3). -/
def State.reset : State where
  aw := 64
  c := { vld := false, tag := .uleb, val := 0 }
  stat := 0
  rlen := 0
  rval := 0
  phase := .idle
  mode := .uleb
  rem := 0
  acc := 0
  idx := 0
  portBase := 0
  portCap := 0
  portLen := 0
  mem := []
  unitOut := { group := 0, rem := 0, last := false, byte := 0, acc := 0 }
  inputs := []
  draws := 0

end Sys2Proof.Machine
end

