-- ==== Sys2Proof/Machine/Flags.lean ====
section
/-! DEFINITION. The status codes. The block has no flags and no condition codes (10_state.md R26); `STAT` is its only status
register, a result that every command overwrites (R25). -/

namespace Sys2Proof.Machine

/-- The three error kinds (R140). -/
inductive ErrorKind where
  | bufferTooSmall
  | unexpectedEndOfBuffer
  | overflow
  deriving DecidableEq, Repr

/-- `STAT` on success (R25). -/
def statOk : BitVec 2 := 0

/-- `code(E)`, the `STAT` code of an error kind (R25). -/
def statCode : ErrorKind → BitVec 2
  | .bufferTooSmall => 1
  | .unexpectedEndOfBuffer => 2
  | .overflow => 3

end Sys2Proof.Machine
end

