-- ==== Sys2Proof/Machine/Memory.lean ====
section
/-! DEFINITION. The byte memory `MEM` (spec 20_memory.md): one byte per address, natural-number addresses (R40), one-byte
accesses only (R47), in one canonical list form. -/

namespace Sys2Proof.Machine

/-- What an address the list does not name reads as. DESIGN CHOICE 0: note 12. -/
def unlistedByte : Byte := 0

/-- The canonical form: addresses strictly rising, no entry equal to what an unlisted address reads as. -/
abbrev Memory.wf (m : Memory) : Prop :=
  m.Pairwise (fun c d => c.1 < d.1) ∧ ∀ c ∈ m, c.2 ≠ unlistedByte

/-- `MemRead(a, 1)` (R11). -/
def memRead : Memory → Nat → Byte
  | [], _ => unlistedByte
  | c :: m, a => if c.1 = a then c.2 else memRead m a

/-- The memory with no entry for `a`. -/
def memErase (m : Memory) (a : Nat) : Memory := m.filter (fun c => decide (c.1 ≠ a))

/-- The memory with an entry put before the first higher address. -/
def memInsert (a : Nat) (b : Byte) : Memory → Memory
  | [] => [(a, b)]
  | c :: m => if a < c.1 then (a, b) :: c :: m else c :: memInsert a b m

/-- `MemWrite(a, 1, b)` (R11). -/
def memWrite (m : Memory) (a : Nat) (b : Byte) : Memory :=
  if b = unlistedByte then memErase m a else memInsert a b (memErase m a)

/-- Bytes written at `base` on, in ascending order (R52). -/
def memWriteBytes (m : Memory) (base : Nat) : List Byte → Memory
  | [] => m
  | b :: bs => memWriteBytes (memWrite m base b) (base + 1) bs

/-- Every byte of the window `[base, base + size)` becomes a free value of draw `d` (R50, R171). -/
def memScramble (m : Memory) (d base : Nat) : Nat → Memory
  | 0 => m
  | k + 1 => memWrite (memScramble m d base k) (base + k) (Config.freeByte d (base + k))

end Sys2Proof.Machine
end

