-- ==== Sys2Proof/Machine/Operands.lean ====
section
/-! DEFINITION. Operand forms: the one address form `BASE + index` and its window (20_memory.md R41, R42; 41_uleb128.md R111),
the shifts of 00_scope.md R10 and the tenth-byte test of 30_encoding.md R73. -/

namespace Sys2Proof.Machine

/-- `LSR7(v) = zext_64(v[63:7])` (R10). -/
def lsr7 (v : Word) : Word := (v.extractLsb' 7 57).setWidth 64

/-- `ASR7(v) = sext_64(v[63:7])` (R10). -/
def asr7 (v : Word) : Word := (v.extractLsb' 7 57).signExtend 64

/-- The low group of a word, `v[6:0]` (R85). -/
def lowGroup (v : Word) : Group := v.extractLsb' 0 7

/-- `group[6]`, the sign bit of a group (R65, R87). -/
def groupSign (p : Group) : Bool := p.getLsbD 6

/-- The window `[base, base + size)` lies inside the address space (R42). -/
def windowFits (aw base size : Nat) : Bool := decide (base + size ≤ 2 ^ aw)

/-- Address `a` is in the window `[base, base + size)` (R41). -/
def inWindow (base size a : Nat) : Bool := decide (base ≤ a ∧ a < base + size)

/-- `TENTH_OK(S, p)`: a terminator at index 9 with payload `p` is in range (R73, R93). -/
def tenthOk : Variant → Group → Bool
  | .uleb, p => p.extractLsb' 1 6 == 0
  | .sleb, p => p == 0x00 || p == 0x7F

/-- A terminator at byte index `i` whose payload does not fit 64 bits (third test of R148). -/
def outOfRange (v : Variant) (i : Nat) (b : Byte) : Bool :=
  !contOf b && decide (i = 9) && !tenthOk v (payloadOf b)

end Sys2Proof.Machine
end

