-- ==== Sys2Proof/Machine/Ops.lean ====
section
/-! DEFINITION. The named operations on the state that the meanings share: constructing a codec, ending a command with success,
ending it with an error (`raise`, the only thing here like taking an exception: spec 60_exceptions.md R146; there is no
return from one, R150), the free values, the guards of R34 and R42, and reset (R170, R171). -/

namespace Sys2Proof.Machine

/-- `C <- (1, t, v)` (R11, R21). -/
def holdCodec (v : Variant) (x : Word) (s : State) : State :=
  { s with c := { vld := true, tag := v, val := x } }

/-- `return OK`: `STAT <- 0`, and the block is idle (R11, R31). -/
def returnOk (s : State) : State := { s with stat := statOk, phase := .idle }

/-- `return OK(n)`: `STAT <- 0`, `RLEN <- n` (R24). -/
def returnLen (n : BitVec 4) (s : State) : State :=
  { s with stat := statOk, rlen := n, phase := .idle }

/-- `raise E` (R146): `STAT <- code(E)`, `RLEN <- any`, `PHASE <- IDLE`, and nothing else. No state is saved and control
stays with the host. -/
def raiseError (e : ErrorKind) (s : State) : State :=
  { s with stat := statCode e, rlen := Config.freeRlen s.draws, phase := .idle, draws := s.draws + 1 }

/-- Every byte of `[base, base + size)` is `any` (R50, R171). -/
def scrambleWindow (base size : Nat) (s : State) : State :=
  { s with mem := memScramble s.mem s.draws base size, draws := s.draws + 1 }

/-- What a `WRITE_INTO` run at the transaction level leaves in the hidden registers it loads (R31): `MODE` the variant, `REM`
and `IDX` open (R186). Note 7. -/
def forgetEncoder (v : Variant) (s : State) : State :=
  { s with mode := v, rem := Config.freeRem s.draws,
           idx := BitVec.ofNat 4 (Config.freeEndIdx s.draws).val, draws := s.draws + 1 }

/-- What a `READ_FROM` run at the transaction level leaves in the hidden registers it loads (R31). Note 7. -/
def forgetDecoder (v : Variant) (s : State) : State :=
  { s with mode := v, acc := Config.freeAcc s.draws,
           idx := BitVec.ofNat 4 (Config.freeEndIdx s.draws).val, draws := s.draws + 1 }

/-- Why a command that needs an idle block and nothing else is refused (R7, R183). -/
def idleGuard (s : State) : Option Refusal :=
  if s.phase = .idle then none else some .busy

/-- Why a command that reads the codec of variant `v` is refused (R34, R101, R121). -/
def codecGuard (v : Variant) (s : State) : Option Refusal :=
  if s.phase ≠ .idle then some .busy
  else if s.c.vld = false then some .noCodec
  else if s.c.tag ≠ v then some .wrongVariant
  else none

/-- Why a `WRITE_INTO` is refused (R34, R42). -/
def writeGuard (v : Variant) (base cap : Nat) (s : State) : Option Refusal :=
  match codecGuard v s with
  | some r => some r
  | none => if windowFits s.aw base cap then none else some .windowWraps

/-- Why a `READ_FROM` is refused (R42). It does not look at the codec (R34). -/
def readGuard (base len : Nat) (s : State) : Option Refusal :=
  match idleGuard s with
  | some r => some r
  | none => if windowFits s.aw base len then none else some .windowWraps

/-- A command's outcome: refused by its guard, or the next state (R12: exactly one outcome). -/
def guarded (g : Option Refusal) (t : State) : Host.Outcome State Fault Refusal :=
  match g with
  | some r => .refused r
  | none => .next t

/-- The variant a bit of `TAG` or `MODE` names (R20). -/
def variantOfBit (b : BitVec 1) : Variant := if b = 0 then .uleb else .sleb

/-- The memory a reset leaves (R170, R171): as it was, but for the window of a `WRITE_INTO` it cuts, every byte of which
is `any`. -/
def cutWindow (s : State) : Memory :=
  match s.phase with
  | .enc => memScramble s.mem s.draws s.portBase s.portCap
  | .idle => s.mem
  | .dec => s.mem

/-- The host's reset (R35, R170, R171): `C.VLD`, `STAT` and `PHASE` at their values, every other register unspecified. -/
def resetBlock (s : State) : State :=
  { s with
    c := { vld := false, tag := variantOfBit (Config.freeTag s.draws), val := Config.freeVal s.draws }
    stat := statOk
    rlen := Config.freeRlen s.draws
    rval := Config.freeRval s.draws
    phase := .idle
    mode := variantOfBit (Config.freeMode s.draws)
    rem := Config.freeRem s.draws
    acc := Config.freeAcc s.draws
    idx := Config.freeIdx s.draws
    mem := cutWindow s
    draws := s.draws + 1 }

end Sys2Proof.Machine
end

