-- ==== Sys2Proof/Machine/Chunker.lean ====
section
/-! DEFINITION. The continuation-bit chunker and the decoder's micro-operations (spec 40_chunker.md R85 to R90), as functions,
and the loops of the encoder and the decoder over them (41_uleb128.md R102, R104; 42_sleb128.md R122, R124). -/

namespace Sys2Proof.Machine

/-- The outputs of a chunk step (R85). -/
structure Chunk where
  group : Group
  /-- `rem'` -/
  rem : Word
  last : Bool
  byte : Byte
  deriving DecidableEq, Repr

/-- The unsigned chunk step (R86). -/
def chunkUnsigned (rem : Word) : Chunk :=
  let next := lsr7 rem
  let last := next == 0
  { group := lowGroup rem, rem := next, last := last, byte := mkByte (!last) (lowGroup rem) }

/-- The signed chunk step (R87). -/
def chunkSigned (rem : Word) : Chunk :=
  let next := asr7 rem
  let last := (next == 0 && !groupSign (lowGroup rem)) || (next == ones64 && groupSign (lowGroup rem))
  { group := lowGroup rem, rem := next, last := last, byte := mkByte (!last) (lowGroup rem) }

/-- `CHUNK(S, rem)` (R85). -/
def chunk : Variant → Word → Chunk
  | .uleb, rem => chunkUnsigned rem
  | .sleb, rem => chunkSigned rem

/-- `ACCUM(acc, idx, b)` (R89): `acc | (zext_64(p) << 7*idx)`, the low 64 bits kept. -/
def accumulate (acc : Word) (idx : Nat) (b : Byte) : Word :=
  acc ||| (((payloadOf b).setWidth 64) <<< (7 * idx))

/-- `SEXT(acc, n, p)` (R90). -/
def extendSign (acc : Word) (n : Nat) (p : Group) : Word :=
  if 7 * n < 64 && groupSign p then acc ||| (ones64 <<< (7 * n)) else acc

/-- What the decoder makes of the accumulator after the terminator: `SEXT` in the signed variant only (R93, R124). -/
def finishAcc (v : Variant) (acc : Word) (n : Nat) (p : Group) : Word :=
  match v with
  | .uleb => acc
  | .sleb => extendSign acc n p

/-- The encoder's loop from `rem`, at most `fuel` bytes. -/
def encodeLoop (v : Variant) : Nat → Word → List Byte
  | 0, _ => []
  | fuel + 1, rem =>
    (chunk v rem).byte :: (if (chunk v rem).last then [] else encodeLoop v fuel (chunk v rem).rem)

/-- The bytes `out[0 .. n-1]` of a `WRITE_INTO` (R102, R122). Ten passes are enough (R91). -/
def encodeBytes (v : Variant) (x : Word) : List Byte := encodeLoop v 10 x

/-- What a decode ends with. -/
inductive Decoded where
  | ok (val : Word) (n : Nat)
  | err (e : ErrorKind)
  deriving DecidableEq, Repr

/-- The decoder's loop at byte index `i`, with `left` positions before the eleventh (`i + left = 10`). The tests come in the
order of R148: bound, eleventh position, tenth-byte range. -/
def decodeLoop (v : Variant) (m : Memory) (base len : Nat) : Nat → Nat → Word → Decoded
  | 0, i, _ => if len ≤ i then .err .unexpectedEndOfBuffer else .err .overflow
  | left + 1, i, acc =>
    if len ≤ i then .err .unexpectedEndOfBuffer
    else if outOfRange v i (memRead m (base + i)) then .err .overflow
    else if contOf (memRead m (base + i)) then
      decodeLoop v m base len left (i + 1) (accumulate acc i (memRead m (base + i)))
    else
      .ok (finishAcc v (accumulate acc i (memRead m (base + i))) (i + 1) (payloadOf (memRead m (base + i)))) (i + 1)

/-- The outcome of a `READ_FROM` over the window `[base, base + len)` (R104, R124). -/
def decodeWindow (v : Variant) (m : Memory) (base len : Nat) : Decoded :=
  decodeLoop v m base len 10 0 0

end Sys2Proof.Machine
end

