-- ==== Sys2Proof/Machine/Bytes.lean ====
section
/-! DEFINITION. The two byte forms of the data format as instructions (spec 30_encoding.md R61): what the running decode does
with such a byte at index `IDX` of its window (40_chunker.md R93). Note 13. -/

namespace Sys2Proof.Machine

/-- The decoder micro-step at a position where no byte is fetched: the bound test comes first, then the eleventh position (R93,
R148). -/
def endOfWindow (s : State) : State :=
  if s.portLen ≤ s.idx.toNat then raiseError .unexpectedEndOfBuffer s else raiseError .overflow s

/-- The position `IDX` is one the decoder fetches a byte from (R49). -/
def positionOpen (s : State) : Bool := decide (s.idx.toNat < s.portLen ∧ s.idx.toNat < 10)

/-- The accumulator and the index moved past the byte `b` (R89, R93). -/
def takeByte (b : Byte) (s : State) : State :=
  { s with acc := accumulate s.acc s.idx.toNat b, idx := s.idx + 1 }

/-- The end of a decode after the terminator with payload `p` (R93): `SEXT` in the signed variant, then `C <- (1, MODE, ACC)`. -/
def finishDecode (p : Group) (s : State) : State :=
  let acc := finishAcc s.mode s.acc s.idx.toNat p
  returnLen s.idx (holdCodec s.mode acc { s with acc := acc })

/-- The decoder micro-step with the byte `b` at the position (R93). -/
def consumeByte (b : Byte) (s : State) : State :=
  if positionOpen s then
    if outOfRange s.mode s.idx.toNat b then raiseError .overflow s
    else if contOf b then takeByte b s
    else finishDecode (payloadOf b) (takeByte b s)
  else endOfWindow s

/-- A byte is executed by a running decode only. -/
def byteStep (b : Byte) (s : State) : Host.Outcome State Fault Refusal :=
  if s.phase = .dec then .next (consumeByte b s) else .refused .byteOutsideDecode

/-- `BYTE.CONTINUATION`: "set means more bytes follow" (R60, R61). -/
def execByteContinuation (p : Group) (s : State) : Host.Outcome State Fault Refusal :=
  byteStep (mkByte true p) s

/-- `BYTE.TERMINATOR`: "clear means this is the last byte" (R60, R61). -/
def execByteTerminator (p : Group) (s : State) : Host.Outcome State Fault Refusal :=
  byteStep (mkByte false p) s

end Sys2Proof.Machine
end

