-- ==== Sys2Proof/Machine/From.lean ====
section
/-! DEFINITION. `ULEB128.FROM` (spec 41_uleb128.md R100) and `SLEB128.FROM` (42_sleb128.md R120): construction. -/

namespace Sys2Proof.Machine

/-- `C <- (1, v, x); return OK`, for an idle block (R7). -/
def construct (v : Variant) (x : Word) (s : State) : Host.Outcome State Fault Refusal :=
  guarded (idleGuard s) (returnOk (holdCodec v x s))

/-- R100. -/
def execUleb128From (x : Word) (s : State) : Host.Outcome State Fault Refusal := construct .uleb x s

/-- R120. -/
def execSleb128From (x : Word) (s : State) : Host.Outcome State Fault Refusal := construct .sleb x s

end Sys2Proof.Machine
end

