-- ==== Sys2Proof/Machine/Micro.lean ====
section
/-! DEFINITION. The four micro-operations as instructions (spec 40_chunker.md R85 to R90; 30_encoding.md R77). Each is a pure
function that "reads and writes no register and no memory" (R85): its outputs go to `unitOut` and nothing else changes. -/

namespace Sys2Proof.Machine

/-- The outputs of a chunk step, delivered. -/
def deliverChunk (k : Chunk) (s : State) : State :=
  { s with unitOut := { s.unitOut with group := k.group, rem := k.rem, last := k.last, byte := k.byte } }

/-- The output `acc'`, delivered. -/
def deliverAcc (acc : Word) (s : State) : State :=
  { s with unitOut := { s.unitOut with acc := acc } }

/-- `CHUNK.U` (R86): total. -/
def execChunkU (rem : Word) (s : State) : Host.Outcome State Fault Refusal :=
  .next (deliverChunk (chunkUnsigned rem) s)

/-- `CHUNK.S` (R87): total. -/
def execChunkS (rem : Word) (s : State) : Host.Outcome State Fault Refusal :=
  .next (deliverChunk (chunkSigned rem) s)

/-- `ACCUM` (R89), `idx` 0 to 9. -/
def execAccum (acc : Word) (idx : Nat) (b : Byte) (s : State) : Host.Outcome State Fault Refusal :=
  if idx ≤ 9 then .next (deliverAcc (accumulate acc idx b) s) else .refused .unitInput

/-- `SEXT` (R90), `n` 1 to 10. -/
def execSext (acc : Word) (n : Nat) (p : Group) (s : State) : Host.Outcome State Fault Refusal :=
  if 1 ≤ n ∧ n ≤ 10 then .next (deliverAcc (extendSign acc n p) s) else .refused .unitInput

end Sys2Proof.Machine
end

