-- ==== Sys2Proof/Machine/ReadFrom.lean ====
section
/-! DEFINITION. `ULEB128.READ_FROM` (spec 41_uleb128.md R104) and `SLEB128.READ_FROM` (42_sleb128.md R124): the variable-length
decoder, at the transaction level. -/

namespace Sys2Proof.Machine

/-- The effect of an accepted `READ_FROM`: a codec constructed and the bytes consumed returned, or an error with the codec
as it was (R21, R104, R124). The memory is not written (R43). -/
def readEffect (v : Variant) (base len : Nat) (s : State) : State :=
  match decodeWindow v s.mem base len with
  | .ok x n => returnLen (BitVec.ofNat 4 n) (holdCodec v x (forgetDecoder v s))
  | .err e => raiseError e (forgetDecoder v s)

def readFrom (v : Variant) (base len : Nat) (s : State) : Host.Outcome State Fault Refusal :=
  guarded (readGuard base len s) (readEffect v base len s)

/-- R104. -/
def execUleb128ReadFrom (base len : Nat) (s : State) : Host.Outcome State Fault Refusal :=
  readFrom .uleb base len s

/-- R124. -/
def execSleb128ReadFrom (base len : Nat) (s : State) : Host.Outcome State Fault Refusal :=
  readFrom .sleb base len s

end Sys2Proof.Machine
end

