-- ==== Sys2Proof/Machine/Value.lean ====
section
/-! DEFINITION. `ULEB128.VALUE` (spec 41_uleb128.md R101, R106) and `SLEB128.VALUE` (42_sleb128.md R121, R126): extraction. -/

namespace Sys2Proof.Machine

/-- `RVAL <- C.VAL; return OK`, for a codec of variant `v`. -/
def extractValue (v : Variant) (s : State) : Host.Outcome State Fault Refusal :=
  guarded (codecGuard v s) (returnOk { s with rval := s.c.val })

/-- R106. -/
def execUleb128Value (s : State) : Host.Outcome State Fault Refusal := extractValue .uleb s

/-- R126. -/
def execSleb128Value (s : State) : Host.Outcome State Fault Refusal := extractValue .sleb s

end Sys2Proof.Machine
end

