-- ==== Sys2Proof/Machine/WriteInto.lean ====
section
/-! DEFINITION. `ULEB128.WRITE_INTO` (spec 41_uleb128.md R101, R102) and `SLEB128.WRITE_INTO` (42_sleb128.md R121, R122): the
variable-length encoder, at the transaction level. -/

namespace Sys2Proof.Machine

/-- The effect of an accepted `WRITE_INTO`: `BufferTooSmall` with every byte of the window `any`, or the encoding written and
its length returned (R102, R122, R50). -/
def writeEffect (v : Variant) (base cap : Nat) (s : State) : State :=
  if cap < (encodeBytes v s.c.val).length then
    raiseError .bufferTooSmall (scrambleWindow base cap (forgetEncoder v s))
  else
    returnLen (BitVec.ofNat 4 (encodeBytes v s.c.val).length)
      { forgetEncoder v s with mem := memWriteBytes s.mem base (encodeBytes v s.c.val) }

def writeInto (v : Variant) (base cap : Nat) (s : State) : Host.Outcome State Fault Refusal :=
  guarded (writeGuard v base cap s) (writeEffect v base cap s)

/-- R102. -/
def execUleb128WriteInto (base cap : Nat) (s : State) : Host.Outcome State Fault Refusal :=
  writeInto .uleb base cap s

/-- R122. -/
def execSleb128WriteInto (base cap : Nat) (s : State) : Host.Outcome State Fault Refusal :=
  writeInto .sleb base cap s

end Sys2Proof.Machine
end

