-- ==== Sys2Proof/Machine/Dispatch.lean ====
section
/-! DEFINITION. One arm per constructor of Instr: the call of its meaning. -/

namespace Sys2Proof.Machine

def exec (i : Instr) (s : State) : Host.Outcome State Fault Refusal :=
  match i with
  | .uleb128From operand => Sys2Proof.Machine.execUleb128From operand s
  | .sleb128From operand => Sys2Proof.Machine.execSleb128From operand s
  | .uleb128WriteInto base cap => Sys2Proof.Machine.execUleb128WriteInto base cap s
  | .sleb128WriteInto base cap => Sys2Proof.Machine.execSleb128WriteInto base cap s
  | .uleb128ReadFrom base len => Sys2Proof.Machine.execUleb128ReadFrom base len s
  | .sleb128ReadFrom base len => Sys2Proof.Machine.execSleb128ReadFrom base len s
  | .uleb128Value => Sys2Proof.Machine.execUleb128Value s
  | .sleb128Value => Sys2Proof.Machine.execSleb128Value s
  | .chunkU rem => Sys2Proof.Machine.execChunkU rem s
  | .chunkS rem => Sys2Proof.Machine.execChunkS rem s
  | .accum acc idx b => Sys2Proof.Machine.execAccum acc idx b s
  | .sext acc n p => Sys2Proof.Machine.execSext acc n p s
  | .byteContinuation p => Sys2Proof.Machine.execByteContinuation p s
  | .byteTerminator p => Sys2Proof.Machine.execByteTerminator p s

end Sys2Proof.Machine
end

