-- ==== Sys2Proof/Machine/HostMoves.lean ====
section
/-! DEFINITION. What the host does to its own memory (spec 70_reset_and_hazards.md R176, R183), and where a word of the opcode
table is placed so that the next step runs it. -/

namespace Sys2Proof.Machine

/-- Addresses the block owns against a write of the host: the window of the running command (R52, R176). -/
def ownedForWrite (s : State) (a : Nat) : Bool :=
  match s.phase with
  | .idle => false
  | .enc => inWindow s.portBase s.portCap a
  | .dec => inWindow s.portBase s.portLen a

/-- Addresses the block owns against a read of the host: the destination window of a running `WRITE_INTO` (R52, R176). -/
def ownedForRead (s : State) (a : Nat) : Bool :=
  match s.phase with
  | .idle => false
  | .enc => inWindow s.portBase s.portCap a
  | .dec => false

/-- The host writes a byte of `MEM` (R183). -/
def hostWrite (a : Nat) (b : Byte) (s : State) : Host.Outcome State Fault Refusal :=
  if 2 ^ s.aw ≤ a then .fault (.noSuchAddress a)
  else if ownedForWrite s a then .refused .windowOwned
  else .next { s with mem := memWrite s.mem a b }

/-- The host reads a byte of `MEM` (R183): no state changes (R47). -/
def hostRead (a : Nat) (s : State) : Host.Outcome State Fault Refusal :=
  if 2 ^ s.aw ≤ a then .fault (.noSuchAddress a)
  else if ownedForRead s a then .refused .windowOwned
  else .next s

/-- The state in which the next step runs the code `c` (note 11): a command or a unit's inputs as the host's next move; a
byte in memory, at the position a running decode fetches next, with a micro-step as the next move. -/
def placeCode (c : Code) (s : State) : State :=
  match c with
  | .cmd p => { s with phase := .idle, inputs := .issue p :: s.inputs }
  | .micro u => { s with inputs := .unit u :: s.inputs }
  | .byte b =>
    { s with phase := .dec, portBase := 0, portLen := 1, idx := 0, mem := memWrite s.mem 0 b,
             inputs := .tick :: s.inputs }

end Sys2Proof.Machine
end

