-- ==== Sys2Proof/Machine/Sequencer.lean ====
section
/-! DEFINITION. The reference micro-sequencer (spec 10_state.md R30, R31; 40_chunker.md R92, R93): accepting a command, the encoder
micro-step, and where the decoder micro-step fetches its byte. -/

namespace Sys2Proof.Machine

/-- The acceptance of a `WRITE_INTO` (R31): `MODE <- S`, `REM <- C.VAL`, `IDX <- 0`, `PHASE <- ENC`. Refused as at the
transaction level (R34, R42). -/
def startEncoder (v : Variant) (base cap : Nat) (s : State) : Host.Outcome State Fault Refusal :=
  guarded (writeGuard v base cap s)
    { s with mode := v, rem := s.c.val, idx := 0, phase := .enc, portBase := base, portCap := cap }

/-- The acceptance of a `READ_FROM` (R31): `MODE <- S`, `ACC <- 0`, `IDX <- 0`, `PHASE <- DEC`. -/
def startDecoder (v : Variant) (base len : Nat) (s : State) : Host.Outcome State Fault Refusal :=
  guarded (readGuard base len s)
    { s with mode := v, acc := 0, idx := 0, phase := .dec, portBase := base, portLen := len }

/-- A byte written by the encoder micro-step, `REM` and `IDX` moved on (R92). -/
def emitChunk (k : Chunk) (s : State) : State :=
  { s with mem := memWrite s.mem (s.portBase + s.idx.toNat) k.byte, rem := k.rem, idx := s.idx + 1 }

/-- The encoder micro-step (R92): the bound is checked before the write. -/
def encTick (s : State) : State :=
  if s.portCap ≤ s.idx.toNat then raiseError .bufferTooSmall s
  else if (chunk s.mode s.rem).last then
    returnLen (s.idx + 1) (emitChunk (chunk s.mode s.rem) s)
  else emitChunk (chunk s.mode s.rem) s

/-- `MemRead(BASE + IDX, 1)`: the byte the decoder micro-step examines (R93, R111). -/
def fetchByte (s : State) : Byte := memRead s.mem (s.portBase + s.idx.toNat)

end Sys2Proof.Machine
end

