-- ==== Sys2Proof/Machine/Step.lean ====
section
/-! DEFINITION. One step of the machine: the host's next move (spec 70_reset_and_hazards.md R183). With no move pending the
block stays as it is: it "executes nothing on its own" (R170). Note 3. -/

namespace Sys2Proof.Machine

/-- A command given to the micro-sequencer: a `WRITE_INTO` or `READ_FROM` starts it (R31), a `FROM` or `VALUE` takes one
micro-step (R181). The last six are no commands and no `CmdPorts` decodes to one. -/
def acceptCommand (i : Instr) (s : State) : Host.Outcome State Fault Refusal :=
  match i with
  | .uleb128WriteInto base cap => startEncoder .uleb base cap s
  | .sleb128WriteInto base cap => startEncoder .sleb base cap s
  | .uleb128ReadFrom base len => startDecoder .uleb base len s
  | .sleb128ReadFrom base len => startDecoder .sleb base len s
  | .uleb128From x => exec (.uleb128From x) s
  | .sleb128From x => exec (.sleb128From x) s
  | .uleb128Value => exec .uleb128Value s
  | .sleb128Value => exec .sleb128Value s
  | .chunkU rem => exec (.chunkU rem) s
  | .chunkS rem => exec (.chunkS rem) s
  | .accum acc idx b => exec (.accum acc idx b) s
  | .sext acc n p => exec (.sext acc n p) s
  | .byteContinuation p => exec (.byteContinuation p) s
  | .byteTerminator p => exec (.byteTerminator p) s

/-- A function unit given its inputs. -/
def runUnit (u : UnitPorts) (s : State) : Host.Outcome State Fault Refusal :=
  match decodeUnit u with
  | .ok i => exec i s
  | .error _ => .refused .unitInput

/-- One micro-step (R92, R93). A decode fetches the byte at `BASE + IDX` and executes the byte form it is; at a position it
does not fetch from, it ends. An idle sequencer does nothing. -/
def tick (s : State) : Host.Outcome State Fault Refusal :=
  match s.phase with
  | .idle => .next s
  | .enc => .next (encTick s)
  | .dec => if positionOpen s then exec (decodeByte (fetchByte s)) s else .next (endOfWindow s)

/-- One move of the host. -/
def runInput (x : Input) (s : State) : Host.Outcome State Fault Refusal :=
  match x with
  | .issue p => exec (decodeCmd p) s
  | .accept p => acceptCommand (decodeCmd p) s
  | .tick => tick s
  | .unit u => runUnit u s
  | .hostWrite a b => hostWrite a b s
  | .hostRead a => hostRead a s
  | .reset => .next (resetBlock s)

def step (s : State) : Host.Outcome State Fault Refusal :=
  match s.inputs with
  | [] => .next s
  | x :: rest => runInput x { s with inputs := rest }

/-- `k` micro-steps, stopping where the sequencer is idle (R186). -/
def runTicks : Nat → State → Host.Outcome State Fault Refusal
  | 0, s => .next s
  | k + 1, s =>
    if s.phase = .idle then .next s
    else
      match tick s with
      | .next t => runTicks k t
      | .fault f => .fault f
      | .refused r => .refused r

/-- `s` with the table's word placed where the next step runs it; a word that is no code changes nothing. -/
def State.withFetchWord (s : State) (nbits w : Nat) : State :=
  match tableCode nbits w with
  | none => s
  | some c => placeCode c s

end Sys2Proof.Machine
end

