-- ==== Sys2Proof/Machine/Format.lean ====
section
/-! DEFINITION. The data format as the spec states it apart from the loops (spec 30_encoding.md R62 to R73): lengths, canonical
encodings, the value a sequence assembles to. The claims compare the machine with these; no step uses them. -/

namespace Sys2Proof.Machine

/-- The bytes of `MEM` at `base` on, `n` of them. -/
def memBytes (m : Memory) (base n : Nat) : List Byte := (List.range n).map (fun i => memRead m (base + i))

/-- `n - 1` continuation bytes followed by one terminator (R62). -/
def isSequence : List Byte → Bool
  | [] => false
  | [b] => !contOf b
  | b :: bs => contOf b && isSequence bs

/-- The wide value `U = sum of p_i * 2^(7i)` (R64). -/
def wideValue : List Byte → Nat
  | [] => 0
  | b :: bs => (payloadOf b).toNat + 128 * wideValue bs

/-- The sign of a sequence: bit 6 of its last payload (R65). -/
def lastSign (l : List Byte) : Bool := groupSign (payloadOf (l.getLastD 0))

/-- The signed value `T = U - 2^(7n) * p_(n-1)[6]` (R65). -/
def signedValue (l : List Byte) : Int :=
  (wideValue l : Int) - (if lastSign l then 2 ^ (7 * l.length) else 0)

/-- The least `n` from `n0` on, `n0 + fuel` at most, with `p n`. -/
def leastLength (p : Nat → Bool) : Nat → Nat → Nat
  | 0, n => n
  | fuel + 1, n => if p n then n else leastLength p fuel (n + 1)

/-- `ULEN(v)`: the least `n >= 1` with `u(v) < 2^(7n)` (R67). -/
def ulen (x : Word) : Nat := leastLength (fun n => decide (x.toNat < 2 ^ (7 * n))) 9 1

/-- `SLEN(v)`: the least `n >= 1` with `-2^(7n-1) <= s(v) < 2^(7n-1)` (R68). -/
def slen (x : Word) : Nat :=
  leastLength (fun n => decide (-2 ^ (7 * n - 1) ≤ x.toInt ∧ x.toInt < 2 ^ (7 * n - 1))) 9 1

/-- The encoded length in a variant. -/
def encLen : Variant → Word → Nat
  | .uleb, x => ulen x
  | .sleb, x => slen x

/-- `zext_70(v)` or `sext_70(v)`, the 70 bits an encoding of ten groups holds (R69, R70). -/
def wide70 : Variant → Word → BitVec 70
  | .uleb, x => x.setWidth 70
  | .sleb, x => x.signExtend 70

/-- The canonical encoding `ENC_U(v)` or `ENC_S(v)` (R69, R70): byte `i` is `{c_i, wide[7i+6 : 7i]}`, `c_i` clear on the last. -/
def canonical (v : Variant) (x : Word) : List Byte :=
  (List.range (encLen v x)).map
    (fun i => mkByte (decide (i + 1 < encLen v x)) ((wide70 v x).extractLsb' (7 * i) 7))

/-- The remaining value after `k` chunk steps on `x` (R91): `zext_64(v[63:7k])` or `sext_64(v[63:7k])`. -/
def remAfter : Variant → Nat → Word → Word
  | .uleb, k, x => x >>> (7 * k)
  | .sleb, k, x => x.sshiftRight (7 * k)

/-- The command `FROM` of a variant. -/
def fromInstr : Variant → Word → Instr
  | .uleb, x => .uleb128From x
  | .sleb, x => .sleb128From x

/-- The command `WRITE_INTO` of a variant. -/
def writeInstr : Variant → Nat → Nat → Instr
  | .uleb, base, cap => .uleb128WriteInto base cap
  | .sleb, base, cap => .sleb128WriteInto base cap

/-- The command `READ_FROM` of a variant. -/
def readInstr : Variant → Nat → Nat → Instr
  | .uleb, base, len => .uleb128ReadFrom base len
  | .sleb, base, len => .sleb128ReadFrom base len

/-- The command `VALUE` of a variant. -/
def valueInstr : Variant → Instr
  | .uleb => .uleb128Value
  | .sleb => .sleb128Value

end Sys2Proof.Machine
end

