-- ==== Sys2Proof/Safety.lean ====
section
/-! DEFINITION. What the claims call a good state, and what they call unchanged. -/

namespace Sys2Proof.Machine

/-- Every listed address lies in the address space (R40). -/
def memInSpace (s : State) : Prop := ∀ c ∈ s.mem, c.1 < 2 ^ s.aw

/-- An encode in progress (R31, R91, R92): the codec is of the running variant, the window lies in the address space, the index
is within the bound and before the end of the encoding, `REM` is the remaining value and the bytes before the index are written. -/
def encProgress (s : State) : Prop :=
  s.c.vld = true ∧ s.c.tag = s.mode ∧ s.portBase + s.portCap ≤ 2 ^ s.aw ∧
  s.idx.toNat ≤ s.portCap ∧ s.idx.toNat < encLen s.mode s.c.val ∧
  s.rem = remAfter s.mode s.idx.toNat s.c.val ∧
  ∀ k, k < s.idx.toNat → memRead s.mem (s.portBase + k) = (canonical s.mode s.c.val).getD k 0

/-- A decode in progress (R31, R93): the window lies in the address space, the index is within the bound and at most 10, the
bytes before it are continuation bytes and `ACC` holds their groups, with zeros at and above bit `7 * IDX`. -/
def decProgress (s : State) : Prop :=
  s.portBase + s.portLen ≤ 2 ^ s.aw ∧ s.idx.toNat ≤ s.portLen ∧ s.idx.toNat ≤ 10 ∧
  (∀ k, k < s.idx.toNat → contOf (memRead s.mem (s.portBase + k)) = true) ∧
  s.acc = BitVec.ofNat 64 (wideValue (memBytes s.mem s.portBase s.idx.toNat)) ∧
  s.acc.toNat < 2 ^ (7 * s.idx.toNat)

/-- The invariant of the machine: the memory is in its canonical form and inside the address space, and what the phase says is
in progress is. -/
def Inv (s : State) : Prop :=
  s.mem.wf ∧ memInSpace s ∧ (s.phase = .enc → encProgress s) ∧ (s.phase = .dec → decProgress s)

/-- Nothing of the host's side and of the model's own fields changes but the draws. -/
def hostSideSame (s t : State) : Prop :=
  t.aw = s.aw ∧ t.portBase = s.portBase ∧ t.portCap = s.portCap ∧ t.portLen = s.portLen ∧
  t.unitOut = s.unitOut ∧ t.inputs = s.inputs

/-- Every byte of memory outside `[base, base + size)` reads as before. -/
def sameOutside (base size : Nat) (s t : State) : Prop :=
  ∀ a, ¬(base ≤ a ∧ a < base + size) → memRead t.mem a = memRead s.mem a

/-- Every byte of memory reads as before. -/
def sameMemory (s t : State) : Prop := ∀ a, memRead t.mem a = memRead s.mem a

end Sys2Proof.Machine
end

