-- ==== Sys2Proof/Certificates/Slice0/Obligations.lean ====
section
/-! DEFINITION. The statements about the LEB128 codec block for the provers. Each docstring names the rules of spec/ it
formalises. A free value (Config.free…) is any value: no statement says what it is. -/

open Sys2Proof Sys2Proof.Machine

/-! ## A step and what it runs -/

/-- R7, R77, R93: a step whose next move is a command, a function unit's inputs or a micro-step of a running decode is `exec` of
the instruction decoded from the command ports, from the unit's inputs, or from the byte of memory at `BASE + IDX`; the one
thing the step does besides is to take the move off the list of inputs. -/
def Obligations.StepRunsDecodedInstruction : Prop :=
  (∀ (s : State) (p : CmdPorts) (rest : List Input) (i : Instr),
    s.inputs = .issue p :: rest → decode (.cmd p) = .ok i → step s = exec i { s with inputs := rest }) ∧
  (∀ (s : State) (u : UnitPorts) (rest : List Input) (i : Instr),
    s.inputs = .unit u :: rest → decode (.micro u) = .ok i → step s = exec i { s with inputs := rest }) ∧
  (∀ (s : State) (rest : List Input) (i : Instr),
    s.inputs = .tick :: rest → s.phase = .dec → s.idx.toNat < s.portLen → s.idx.toNat < 10 →
    decode (.byte (memRead s.mem (s.portBase + s.idx.toNat))) = .ok i → step s = exec i { s with inputs := rest })

/-- R170: with no move of the host pending, a step changes nothing. -/
def Obligations.StepWithoutMoveIsIdle : Prop :=
  ∀ s : State, s.inputs = [] → step s = .next s

/-- R31: the acceptance of a `WRITE_INTO` loads `MODE <- S`, `REM <- C.VAL`, `IDX <- 0`, `PHASE <- ENC`, that of a `READ_FROM`
loads `MODE <- S`, `ACC <- 0`, `IDX <- 0`, `PHASE <- DEC`; the host holds the window's ports and nothing else changes. -/
def Obligations.AcceptanceLoadsSequencer : Prop :=
  (∀ (s : State) (v : Variant) (p : CmdPorts) (rest : List Input) (base cap : Nat),
    s.inputs = .accept p :: rest → decodeCmd p = writeInstr v base cap →
    s.phase = .idle → s.c.vld = true → s.c.tag = v → base + cap ≤ 2 ^ s.aw →
    step s = .next { s with inputs := rest, mode := v, rem := s.c.val, idx := 0, phase := .enc,
                            portBase := base, portCap := cap }) ∧
  (∀ (s : State) (v : Variant) (p : CmdPorts) (rest : List Input) (base len : Nat),
    s.inputs = .accept p :: rest → decodeCmd p = readInstr v base len →
    s.phase = .idle → base + len ≤ 2 ^ s.aw →
    step s = .next { s with inputs := rest, mode := v, acc := 0, idx := 0, phase := .dec,
                            portBase := base, portLen := len })

/-- R92: the encoder micro-step. No room: `STAT <- 1`, `RLEN` any, `PHASE <- IDLE`, no byte outside the window changed; of the
window's bytes after `BufferTooSmall` nothing is said, since no claim may use them (R92, R186). Otherwise one byte written at
`BASE + IDX`, its payload the low 7 bits of `REM`, `REM` shifted by 7 (logically or arithmetically), `IDX` one more; on the last
byte `STAT <- 0`, `RLEN` the new `IDX`, `PHASE <- IDLE`. -/
def Obligations.EncoderMicroStep : Prop :=
  (∀ (s : State) (rest : List Input), s.inputs = .tick :: rest → s.phase = .enc → s.portCap ≤ s.idx.toNat →
    ∃ t, step s = .next t ∧ sameOutside s.portBase s.portCap s t ∧
      t = { s with inputs := rest, stat := 1, rlen := t.rlen, phase := .idle, mem := t.mem, draws := t.draws }) ∧
  (∀ (s : State) (rest : List Input), s.inputs = .tick :: rest → s.phase = .enc → s.idx.toNat < s.portCap →
    s.idx.toNat ≤ 9 →
    ∃ (t : State) (last : Bool), step s = .next t ∧
      (last = true ↔ (s.mode = .uleb ∧ s.rem.toNat < 128) ∨ (s.mode = .sleb ∧ -64 ≤ s.rem.toInt ∧ s.rem.toInt < 64)) ∧
      (s.mode = .uleb → t.rem.toNat = s.rem.toNat / 128) ∧ (s.mode = .sleb → t.rem.toInt = s.rem.toInt / 128) ∧
      t.idx.toNat = s.idx.toNat + 1 ∧
      (memRead t.mem (s.portBase + s.idx.toNat)).toNat = s.rem.toNat % 128 + (if last then 0 else 128) ∧
      sameOutside (s.portBase + s.idx.toNat) 1 s t ∧
      t = { s with inputs := rest, mem := t.mem, rem := t.rem, idx := t.idx,
                   stat := if last then 0 else s.stat, rlen := if last then t.idx else s.rlen,
                   phase := if last then .idle else .enc })

/-- R148, R93: a micro-step of a decode at a position outside the slice ends it with `UnexpectedEndOfBuffer`, at the eleventh
position inside it with `Overflow`, in this order, without looking at the memory. -/
def Obligations.DecodeEndsWithoutFetch : Prop :=
  (∀ (s : State) (rest : List Input), s.inputs = .tick :: rest → s.phase = .dec → s.portLen ≤ s.idx.toNat →
    ∃ t, step s = .next t ∧
      t = { s with inputs := rest, stat := 2, rlen := t.rlen, phase := .idle, draws := t.draws }) ∧
  (∀ (s : State) (rest : List Input), s.inputs = .tick :: rest → s.phase = .dec → s.idx.toNat < s.portLen →
    s.idx.toNat = 10 →
    ∃ t, step s = .next t ∧
      t = { s with inputs := rest, stat := 3, rlen := t.rlen, phase := .idle, draws := t.draws })

/-! ## Decoding -/

/-- R75, R76, R61: sample commands and bytes, each written out from the spec's encoding; and two micro-operations, of whose code
R77 gives the 2-bit `UOP` only: how their inputs stand beside it, index 9 for `n = 10` of `SEXT` among it, is the model's choice
(note 10). -/
def Obligations.SampleCodesDecode : Prop :=
  decode (.cmd ⟨0b000#3, 300#64, 1, 2, 3⟩) = .ok (.uleb128From 300#64) ∧
  decode (.cmd ⟨0b011#3, 300#64, 1, 2, 3⟩) = .ok (.sleb128WriteInto 1 2) ∧
  decode (.cmd ⟨0b100#3, 300#64, 1, 2, 3⟩) = .ok (.uleb128ReadFrom 1 3) ∧
  decode (.cmd ⟨0b111#3, 300#64, 1, 2, 3⟩) = .ok .sleb128Value ∧
  decode (.micro ⟨0b01#2, 64#64, 9#4, 0xAC#8, 0x7D#7⟩) = .ok (.chunkS 64#64) ∧
  decode (.micro ⟨0b11#2, 64#64, 9#4, 0xAC#8, 0x7D#7⟩) = .ok (.sext 64#64 10 0x7D#7) ∧
  decode (.byte 0b10101100#8) = .ok (.byteContinuation 0b0101100#7) ∧
  decode (.byte 0b00000010#8) = .ok (.byteTerminator 0b0000010#7)

/-- R75 to R77, R60: decoding the encoding of a well-formed instruction gives it back, every operand at every value. -/
def Obligations.DecodeOfEncode : Prop :=
  ∀ i : Instr, i.wf = true → decode (encode i) = .ok i

/-- R76, R61, R23: what decodes is well formed, and its encoding is the code it was decoded from with the ports it does not use
at 0; two codes of one instruction differ in unused ports only. -/
def Obligations.EncodeOfDecode : Prop :=
  ∀ (c : Code) (i : Instr), decode c = .ok i → i.wf = true ∧ encode i = usedPorts c

/-- R76: all eight command codes are assigned; R61: every byte value is a continuation byte, `0x80` to `0xFF`, or a terminator,
`0x00` to `0x7F`, its payload the low 7 bits. -/
def Obligations.EveryCommandAndByteDecodes : Prop :=
  (∀ p : CmdPorts, ∃ i, decode (.cmd p) = .ok i) ∧
  (∀ b : Byte, 128 ≤ b.toNat → ∃ p : Group, decode (.byte b) = .ok (.byteContinuation p) ∧ p.toNat = b.toNat - 128) ∧
  (∀ b : Byte, b.toNat < 128 → ∃ p : Group, decode (.byte b) = .ok (.byteTerminator p) ∧ p.toNat = b.toNat)

/-- R78: an immediate in the range of its syntax is placed on `OPERAND` as the vector whose unsigned or signed reading it is;
one outside the range is not placed. -/
def Obligations.ImmediateOnOperand : Prop :=
  ∀ imm : Int,
    (0 ≤ imm ∧ imm ≤ 18446744073709551615 → ∃ x, immOperand .uleb imm = some x ∧ (x.toNat : Int) = imm) ∧
    (¬(0 ≤ imm ∧ imm ≤ 18446744073709551615) → immOperand .uleb imm = none) ∧
    (-9223372036854775808 ≤ imm ∧ imm ≤ 9223372036854775807 → ∃ x, immOperand .sleb imm = some x ∧ x.toInt = imm) ∧
    (¬(-9223372036854775808 ≤ imm ∧ imm ≤ 9223372036854775807) → immOperand .sleb imm = none)

/-! ## Construction and extraction -/

/-- R100: `ULEB128.FROM` on an idle block: `C <- (1, 0, OPERAND)`, `STAT <- 0`, everything else as it was. -/
def Obligations.UlebFromHoldsOperand : Prop :=
  ∀ (x : Word) (s : State), s.phase = .idle →
    exec (.uleb128From x) s = .next { s with c := { vld := true, tag := .uleb, val := x }, stat := 0 }

/-- R120: `SLEB128.FROM`: `C <- (1, 1, OPERAND)`, `STAT <- 0`, everything else as it was. -/
def Obligations.SlebFromHoldsOperand : Prop :=
  ∀ (x : Word) (s : State), s.phase = .idle →
    exec (.sleb128From x) s = .next { s with c := { vld := true, tag := .sleb, val := x }, stat := 0 }

/-- R106: `ULEB128.VALUE` with an unsigned codec: `RVAL <- C.VAL`, `STAT <- 0`, everything else as it was; after
`ULEB128.FROM x` it gives `RVAL = x`. -/
def Obligations.UlebValueDelivers : Prop :=
  (∀ s : State, s.phase = .idle → s.c.vld = true → s.c.tag = .uleb →
    exec .uleb128Value s = .next { s with rval := s.c.val, stat := 0 }) ∧
  (∀ (x : Word) (s t : State), exec (.uleb128From x) s = .next t →
    exec .uleb128Value t = .next { t with rval := x })

/-- R126: `SLEB128.VALUE` with a signed codec, likewise; `ULEB128.VALUE` on a signed codec is refused. -/
def Obligations.SlebValueDelivers : Prop :=
  (∀ s : State, s.phase = .idle → s.c.vld = true → s.c.tag = .sleb →
    exec .sleb128Value s = .next { s with rval := s.c.val, stat := 0 }) ∧
  (∀ (x : Word) (s t : State), exec (.sleb128From x) s = .next t →
    exec .sleb128Value t = .next { t with rval := x }) ∧
  (∀ s : State, s.phase = .idle → s.c.vld = true → s.c.tag = .sleb →
    exec .uleb128Value s = .refused .wrongVariant)

/-- R22: for every 64-bit vector, constructing a codec and then extracting gives the vector again, in both variants. -/
def Obligations.FromThenValueLossless : Prop :=
  ∀ (v : Variant) (x : Word) (s : State), s.phase = .idle →
    ∃ t u, exec (fromInstr v x) s = .next t ∧ exec (valueInstr v) t = .next u ∧ u.rval = x

/-! ## Refusals -/

/-- R34, R101, R121: `WRITE_INTO` and `VALUE` are refused while no codec is held and when the codec is of the other variant.
That the refusal is the one named here whatever the window, a wrapping one among them, is the model's choice (note 21). -/
def Obligations.WithoutCodecRefused : Prop :=
  (∀ (v : Variant) (base cap : Nat) (s : State), s.phase = .idle → s.c.vld = false →
    exec (writeInstr v base cap) s = .refused .noCodec ∧ exec (valueInstr v) s = .refused .noCodec) ∧
  (∀ (v : Variant) (base cap : Nat) (s : State), s.phase = .idle → s.c.vld = true → s.c.tag ≠ v →
    exec (writeInstr v base cap) s = .refused .wrongVariant ∧ exec (valueInstr v) s = .refused .wrongVariant)

/-- R42: a command whose window does not lie inside the address space is refused. -/
def Obligations.WrappingWindowRefused : Prop :=
  ∀ (v : Variant) (base size : Nat) (s : State), 2 ^ s.aw < base + size →
    (∃ r, exec (writeInstr v base size) s = .refused r) ∧ (∃ r, exec (readInstr v base size) s = .refused r)

/-- The model's choice (notes 20 and 21), after R7 and R183, which let a command start from an idle state only: while one runs,
each of the eight is refused, and `busy` is the name given before any other. -/
def Obligations.CommandWhileRunningRefused : Prop :=
  ∀ (v : Variant) (x : Word) (base size : Nat) (s : State), s.phase ≠ .idle →
    exec (fromInstr v x) s = .refused .busy ∧ exec (writeInstr v base size) s = .refused .busy ∧
    exec (readInstr v base size) s = .refused .busy ∧ exec (valueInstr v) s = .refused .busy

/-- The model's own stops (notes 10 and 13): `ACCUM` and `SEXT` outside the ranges R89 and R90 give their counts, and a byte of
the data format with no decode running. -/
def Obligations.UnitRangeAndStrayByteRefused : Prop :=
  (∀ (acc : Word) (idx : Nat) (b : Byte) (s : State), 9 < idx → exec (.accum acc idx b) s = .refused .unitInput) ∧
  (∀ (acc : Word) (n : Nat) (p : Group) (s : State), n = 0 ∨ 10 < n → exec (.sext acc n p) s = .refused .unitInput) ∧
  (∀ (p : Group) (s : State), s.phase ≠ .dec →
    exec (.byteContinuation p) s = .refused .byteOutsideDecode ∧ exec (.byteTerminator p) s = .refused .byteOutsideDecode)

/-! ## The micro-operations -/

/-- R86: `CHUNK.U` on every input: `group` the low 7 bits, `rem'` the quotient by 128, `last` exactly when `rem'` is 0, `byte`
the group with bit 7 clear exactly on the last; nothing else of the state changes; and a run of `CHUNK.U` steps reaches
`rem' = 0` in at most 10 steps. -/
def Obligations.ChunkUnsignedOutputs : Prop :=
  (∀ (rem : Word) (s : State), ∃ t, exec (.chunkU rem) s = .next t ∧
    t.unitOut.group.toNat = rem.toNat % 128 ∧ t.unitOut.rem.toNat = rem.toNat / 128 ∧
    (t.unitOut.last = true ↔ t.unitOut.rem = 0) ∧
    t.unitOut.byte.toNat = rem.toNat % 128 + (if t.unitOut.last then 0 else 128) ∧
    t.unitOut.acc = s.unitOut.acc ∧ t = { s with unitOut := t.unitOut }) ∧
  (∀ (s : State) (x : Nat → Word),
    (∀ k, ∃ t, exec (.chunkU (x k)) s = .next t ∧ t.unitOut.rem = x (k + 1)) → ∃ k, k ≤ 10 ∧ x k = 0)

/-- R87: `CHUNK.S` on every input: `rem'` is the floor of the signed value by 128; `last` exactly when `rem'` is 0 and bit 6 of
the group is 0, or `rem'` is -1 and bit 6 is 1, which is to say when the signed value is in -64 to 63. -/
def Obligations.ChunkSignedOutputs : Prop :=
  ∀ (rem : Word) (s : State), ∃ t, exec (.chunkS rem) s = .next t ∧
    t.unitOut.group.toNat = rem.toNat % 128 ∧ t.unitOut.rem.toInt = rem.toInt / 128 ∧
    (t.unitOut.last = true ↔
      (t.unitOut.rem.toInt = 0 ∧ t.unitOut.group.getLsbD 6 = false) ∨
      (t.unitOut.rem.toInt = -1 ∧ t.unitOut.group.getLsbD 6 = true)) ∧
    (t.unitOut.last = true ↔ -64 ≤ rem.toInt ∧ rem.toInt < 64) ∧
    t.unitOut.byte.toNat = rem.toNat % 128 + (if t.unitOut.last then 0 else 128) ∧
    t.unitOut.acc = s.unitOut.acc ∧ t = { s with unitOut := t.unitOut }

/-- R88: for a value with bit 63 clear the two shifts agree, and the `last` outputs differ exactly from 64 to 127, where
`CHUNK.U` ends and `CHUNK.S` goes on. -/
def Obligations.ChunkVariantsPart : Prop :=
  ∀ (rem : Word) (s t u : State), exec (.chunkU rem) s = .next t → exec (.chunkS rem) s = .next u →
    t.unitOut.group = u.unitOut.group ∧
    (rem.getLsbD 63 = false → t.unitOut.rem = u.unitOut.rem ∧
      (t.unitOut.last ≠ u.unitOut.last ↔ 64 ≤ rem.toNat ∧ rem.toNat ≤ 127)) ∧
    (64 ≤ rem.toNat ∧ rem.toNat ≤ 127 → t.unitOut.last = true ∧ u.unitOut.last = false)

/-- R89: `ACCUM` at index 0 to 9: bit `j` of `acc'` is bit `j` of `acc` or payload bit `j - 7*idx`; when `acc` has zeros at and
above bit `7*idx`, this is the sum, of which the low 64 bits are kept. Nothing else of the state changes. -/
def Obligations.AccumulateOutput : Prop :=
  ∀ (acc : Word) (idx : Nat) (b : Byte) (s : State), idx ≤ 9 →
    ∃ t, exec (.accum acc idx b) s = .next t ∧
      (∀ j, j < 64 → t.unitOut.acc.getLsbD j =
        (acc.getLsbD j || (decide (7 * idx ≤ j ∧ j < 7 * idx + 7) && b.getLsbD (j - 7 * idx)))) ∧
      (acc.toNat < 2 ^ (7 * idx) → t.unitOut.acc.toNat = (acc.toNat + b.toNat % 128 * 2 ^ (7 * idx)) % 2 ^ 64) ∧
      t = { s with unitOut := { s.unitOut with acc := t.unitOut.acc } }

/-- R90: `SEXT` after 1 to 10 bytes: when `7n < 64` and bit 6 of the payload is set, bits `7n` to 63 are set; otherwise `acc'` is
`acc`. Nothing else of the state changes. -/
def Obligations.SignExtendOutput : Prop :=
  ∀ (acc : Word) (n : Nat) (p : Group) (s : State), 1 ≤ n → n ≤ 10 →
    ∃ t, exec (.sext acc n p) s = .next t ∧
      (∀ j, j < 64 → t.unitOut.acc.getLsbD j =
        (acc.getLsbD j || (decide (7 * n < 64 ∧ 7 * n ≤ j) && p.getLsbD 6))) ∧
      t = { s with unitOut := { s.unitOut with acc := t.unitOut.acc } }

/-! ## The bytes of the data format in a running decode -/

/-- R93: a continuation byte at an index 0 to 9 inside the slice: its group is accumulated at `7 * IDX`, `IDX` goes up by one, and
nothing else changes; at index 9 its payload is not tested. -/
def Obligations.ContinuationByteAccumulates : Prop :=
  ∀ (p : Group) (s : State), s.phase = .dec → s.idx.toNat < s.portLen → s.idx.toNat ≤ 9 →
    ∃ t, exec (.byteContinuation p) s = .next t ∧ t.idx.toNat = s.idx.toNat + 1 ∧
      (∀ j, j < 64 → t.acc.getLsbD j =
        (s.acc.getLsbD j || (decide (7 * s.idx.toNat ≤ j) && p.getLsbD (j - 7 * s.idx.toNat)))) ∧
      t = { s with acc := t.acc, idx := t.idx }

/-- R93, R90: a terminator in range ends the decode: its group is accumulated, the signed variant extends the sign, the codec of
the running variant is constructed from `ACC`, `STAT <- 0`, `RLEN` the number of bytes, `PHASE <- IDLE`. -/
def Obligations.TerminatorByteEndsDecode : Prop :=
  ∀ (p : Group) (s : State), s.phase = .dec → s.idx.toNat < s.portLen → s.idx.toNat ≤ 9 →
    (s.idx.toNat = 9 → s.mode = .uleb → p.toNat ≤ 1) →
    (s.idx.toNat = 9 → s.mode = .sleb → p.toNat = 0 ∨ p.toNat = 127) →
    ∃ t, exec (.byteTerminator p) s = .next t ∧ t.idx.toNat = s.idx.toNat + 1 ∧ t.rlen = t.idx ∧
      t.c = { vld := true, tag := s.mode, val := t.acc } ∧
      (∀ j, j < 64 → t.acc.getLsbD j =
        (s.acc.getLsbD j || (decide (7 * s.idx.toNat ≤ j) && p.getLsbD (j - 7 * s.idx.toNat)) ||
          (decide (s.mode = .sleb ∧ 7 * (s.idx.toNat + 1) < 64 ∧ 7 * (s.idx.toNat + 1) ≤ j) && p.getLsbD 6))) ∧
      t = { s with c := t.c, stat := 0, rlen := t.rlen, phase := .idle, acc := t.acc, idx := t.idx }

/-- R148 (third test), R93: a terminator at index 9 out of range gives `Overflow`; the codec, `ACC` and `IDX` are as they were. -/
def Obligations.TenthTerminatorOverflows : Prop :=
  ∀ (p : Group) (s : State), s.phase = .dec → s.idx.toNat = 9 → 9 < s.portLen →
    (s.mode = .uleb ∧ 2 ≤ p.toNat ∨ s.mode = .sleb ∧ p.toNat ≠ 0 ∧ p.toNat ≠ 127) →
    ∃ t, exec (.byteTerminator p) s = .next t ∧
      t = { s with stat := 3, rlen := t.rlen, phase := .idle, draws := t.draws }

/-! ## The encoder -/

/-- R67, R68, R66: `ULEN` and `SLEN` are from 1 to 10, and each is the least length whose range holds the value. -/
def Obligations.LengthsAreLeast : Prop :=
  ∀ x : Word,
    (1 ≤ ulen x ∧ ulen x ≤ 10 ∧ x.toNat < 2 ^ (7 * ulen x) ∧ ∀ n, 1 ≤ n → x.toNat < 2 ^ (7 * n) → ulen x ≤ n) ∧
    (1 ≤ slen x ∧ slen x ≤ 10 ∧ (-2 ^ (7 * slen x - 1) ≤ x.toInt ∧ x.toInt < 2 ^ (7 * slen x - 1)) ∧
      ∀ n, 1 ≤ n → -2 ^ (7 * n - 1) ≤ x.toInt → x.toInt < 2 ^ (7 * n - 1) → slen x ≤ n)

/-- R102, R103, R50: `ULEB128.WRITE_INTO` with room writes `ENC_U(C.VAL)` at `BASE` on and nothing else of the memory; `STAT <- 0`,
`RLEN = ULEN(C.VAL)`; the codec, `RVAL` and the host's side are unchanged, and `ACC` by note 7 (`MODE`, `REM`, `IDX` are open
there). -/
def Obligations.UlebWriteCanonical : Prop :=
  ∀ (base cap : Nat) (s : State), s.phase = .idle → s.c.vld = true → s.c.tag = .uleb →
    base + cap ≤ 2 ^ s.aw → ulen s.c.val ≤ cap →
    ∃ t, exec (.uleb128WriteInto base cap) s = .next t ∧ t.stat = 0 ∧ t.rlen.toNat = ulen s.c.val ∧
      (∀ k, k < ulen s.c.val → memRead t.mem (base + k) = (canonical .uleb s.c.val).getD k 0) ∧
      sameOutside base (ulen s.c.val) s t ∧
      t.c = s.c ∧ t.rval = s.rval ∧ t.acc = s.acc ∧ t.phase = .idle ∧ hostSideSame s t

/-- R122, R123, R50: `SLEB128.WRITE_INTO` with room, likewise with `ENC_S` and `SLEN`; `ACC` unchanged is note 7. -/
def Obligations.SlebWriteCanonical : Prop :=
  ∀ (base cap : Nat) (s : State), s.phase = .idle → s.c.vld = true → s.c.tag = .sleb →
    base + cap ≤ 2 ^ s.aw → slen s.c.val ≤ cap →
    ∃ t, exec (.sleb128WriteInto base cap) s = .next t ∧ t.stat = 0 ∧ t.rlen.toNat = slen s.c.val ∧
      (∀ k, k < slen s.c.val → memRead t.mem (base + k) = (canonical .sleb s.c.val).getD k 0) ∧
      sameOutside base (slen s.c.val) s t ∧
      t.c = s.c ∧ t.rval = s.rval ∧ t.acc = s.acc ∧ t.phase = .idle ∧ hostSideSame s t

/-- R46, R62: payload bit `k` of the byte a `WRITE_INTO` leaves at index `i` is value bit `7i + k` (beyond bit 63, zeros or the
sign), and its bit 7 is set on every byte but the last. -/
def Obligations.WrittenBitsLittleEndian : Prop :=
  ∀ (v : Variant) (base cap : Nat) (s t : State), exec (writeInstr v base cap) s = .next t → t.stat = 0 →
    ∀ i, i < t.rlen.toNat →
      (∀ k, k < 7 → (memRead t.mem (base + i)).getLsbD k =
        if 7 * i + k < 64 then s.c.val.getLsbD (7 * i + k) else (decide (v = .sleb) && s.c.val.getLsbD 63)) ∧
      ((memRead t.mem (base + i)).getLsbD 7 = true ↔ i + 1 < t.rlen.toNat)

/-- R141, R146, R50: a `WRITE_INTO` whose `CAP` is below the encoded length gives `BufferTooSmall`: the codec, `RVAL` and every
byte outside the window are unchanged; the window's bytes and `RLEN` are any; `ACC` unchanged is note 7. -/
def Obligations.WriteTooSmall : Prop :=
  ∀ (v : Variant) (base cap : Nat) (s : State), s.phase = .idle → s.c.vld = true → s.c.tag = v →
    base + cap ≤ 2 ^ s.aw → cap < encLen v s.c.val →
    ∃ t, exec (writeInstr v base cap) s = .next t ∧ t.stat = 1 ∧ sameOutside base cap s t ∧
      t.c = s.c ∧ t.rval = s.rval ∧ t.acc = s.acc ∧ t.phase = .idle ∧ hostSideSame s t

/-- R150: after `BufferTooSmall` the same command with room for the encoding (10 bytes always are) succeeds. -/
def Obligations.RetryAfterTooSmall : Prop :=
  ∀ (v : Variant) (base cap cap' : Nat) (s t : State), exec (writeInstr v base cap) s = .next t → t.stat = 1 →
    base + cap' ≤ 2 ^ s.aw → (encLen v s.c.val ≤ cap' ∨ 10 ≤ cap') →
    ∃ u, exec (writeInstr v base cap') t = .next u ∧ u.stat = 0 ∧ u.rlen.toNat = encLen v s.c.val

/-! ## The decoder -/

/-- R104, R105, R73 (case valid): a slice that begins with `n - 1` continuation bytes and a terminator, the tenth payload at most
1, decodes to the wide value: `C <- (1, 0, U)`, `STAT <- 0`, `RLEN = n`; the memory, `RVAL` and the host's side are
unchanged, and `REM` by note 7. -/
def Obligations.UlebReadDecodes : Prop :=
  ∀ (base len n : Nat) (s : State), s.phase = .idle → base + len ≤ 2 ^ s.aw → n ≤ len → n ≤ 10 →
    isSequence (memBytes s.mem base n) = true →
    (n = 10 → (memRead s.mem (base + 9)).toNat ≤ 1) →
    ∃ t, exec (.uleb128ReadFrom base len) s = .next t ∧ t.stat = 0 ∧ t.rlen.toNat = n ∧
      t.c.vld = true ∧ t.c.tag = .uleb ∧ t.c.val.toNat = wideValue (memBytes s.mem base n) ∧
      t.mem = s.mem ∧ t.rval = s.rval ∧ t.rem = s.rem ∧ t.phase = .idle ∧ hostSideSame s t

/-- R124, R125, R73 (case valid): likewise in the signed variant, the tenth byte `0x00` or `0x7F`: `C <- (1, 1, T)`; `REM`
unchanged is note 7. -/
def Obligations.SlebReadDecodes : Prop :=
  ∀ (base len n : Nat) (s : State), s.phase = .idle → base + len ≤ 2 ^ s.aw → n ≤ len → n ≤ 10 →
    isSequence (memBytes s.mem base n) = true →
    (n = 10 → memRead s.mem (base + 9) = 0x00#8 ∨ memRead s.mem (base + 9) = 0x7F#8) →
    ∃ t, exec (.sleb128ReadFrom base len) s = .next t ∧ t.stat = 0 ∧ t.rlen.toNat = n ∧
      t.c.vld = true ∧ t.c.tag = .sleb ∧ t.c.val.toInt = signedValue (memBytes s.mem base n) ∧
      t.mem = s.mem ∧ t.rval = s.rval ∧ t.rem = s.rem ∧ t.phase = .idle ∧ hostSideSame s t

/-- R73 (cases truncated, overlong, out of range), R142, R143, R146, R148: the errors of a `READ_FROM` and when each is raised;
the codec, `RVAL`, the memory and the host's side are unchanged, and `REM` by note 7. -/
def Obligations.ReadErrorsClassified : Prop :=
  ∀ (v : Variant) (base len : Nat) (s : State), s.phase = .idle → base + len ≤ 2 ^ s.aw →
    (len ≤ 10 → (∀ k, k < len → 128 ≤ (memRead s.mem (base + k)).toNat) →
      ∃ t, exec (readInstr v base len) s = .next t ∧ t.stat = 2 ∧
        t.c = s.c ∧ t.mem = s.mem ∧ t.rval = s.rval ∧ t.rem = s.rem ∧ t.phase = .idle ∧ hostSideSame s t) ∧
    (11 ≤ len → (∀ k, k < 10 → 128 ≤ (memRead s.mem (base + k)).toNat) →
      ∃ t, exec (readInstr v base len) s = .next t ∧ t.stat = 3 ∧
        t.c = s.c ∧ t.mem = s.mem ∧ t.rval = s.rval ∧ t.rem = s.rem ∧ t.phase = .idle ∧ hostSideSame s t) ∧
    (10 ≤ len → (∀ k, k < 9 → 128 ≤ (memRead s.mem (base + k)).toNat) →
      (memRead s.mem (base + 9)).toNat < 128 →
      (v = .uleb ∧ 2 ≤ (memRead s.mem (base + 9)).toNat ∨
       v = .sleb ∧ (memRead s.mem (base + 9)).toNat ≠ 0 ∧ (memRead s.mem (base + 9)).toNat ≠ 127) →
      ∃ t, exec (readInstr v base len) s = .next t ∧ t.stat = 3 ∧
        t.c = s.c ∧ t.mem = s.mem ∧ t.rval = s.rval ∧ t.rem = s.rem ∧ t.phase = .idle ∧ hostSideSame s t)

/-- R51, R185: the result of a `READ_FROM` depends on no byte of memory but those of its slice at indices below 10, and on success
on the bytes consumed only. -/
def Obligations.ReadDependsOnSliceOnly : Prop :=
  ∀ (v : Variant) (base len : Nat) (s t : State) (m : Memory), exec (readInstr v base len) s = .next t →
    ((∀ k, k < len → k < 10 → memRead m (base + k) = memRead s.mem (base + k)) ∨
     (t.stat = 0 ∧ ∀ k, k < t.rlen.toNat → memRead m (base + k) = memRead s.mem (base + k))) →
    exec (readInstr v base len) { s with mem := m } = .next { t with mem := m }

/-- R145: `UnexpectedEndOfBuffer` is raised only for slices that are ten continuation bytes or that some longer slice extends to
a valid encoding, `Overflow` only for slices that no extension makes valid. -/
def Obligations.ErrorsTellExtendable : Prop :=
  ∀ (v : Variant) (base len : Nat) (s t : State), exec (readInstr v base len) s = .next t →
    (t.stat = 2 → base + 10 ≤ 2 ^ s.aw →
      (len = 10 ∧ ∀ k, k < 10 → contOf (memRead s.mem (base + k)) = true) ∨
      ∃ (m : Memory) (len' : Nat) (u : State), len < len' ∧
        (∀ k, k < len → memRead m (base + k) = memRead s.mem (base + k)) ∧
        exec (readInstr v base len') { s with mem := m } = .next u ∧ u.stat = 0) ∧
    (t.stat = 3 → ∀ (m : Memory) (len' : Nat), len ≤ len' → base + len' ≤ 2 ^ s.aw →
      (∀ k, k < len → memRead m (base + k) = memRead s.mem (base + k)) →
      ∃ u, exec (readInstr v base len') { s with mem := m } = .next u ∧ u.stat = 3)

/-- R72: a needlessly long sequence is accepted: where a `READ_FROM` succeeds on `n <= 9` bytes, the same bytes with the last one
made a continuation byte and one more group of zeros, or of sign bits in the signed variant, give the same codec and `n + 1`. -/
def Obligations.NonCanonicalAccepted : Prop :=
  ∀ (v : Variant) (base len len' n : Nat) (s t : State) (m : Memory),
    exec (readInstr v base len) s = .next t → t.stat = 0 → t.rlen.toNat = n → n ≤ 9 →
    n + 1 ≤ len' → base + len' ≤ 2 ^ s.aw →
    (∀ k, k + 1 < n → memRead m (base + k) = memRead s.mem (base + k)) →
    memRead m (base + (n - 1)) = memRead s.mem (base + (n - 1)) ||| 0x80#8 →
    memRead m (base + n) =
      (if v = .sleb ∧ (memRead s.mem (base + (n - 1))).getLsbD 6 = true then 0x7F#8 else 0x00#8) →
    ∃ u, exec (readInstr v base len') { s with mem := m } = .next u ∧ u.stat = 0 ∧ u.c = t.c ∧ u.rlen.toNat = n + 1

/-- R71: the canonical encodings are injective, and the canonical encoding is the unique shortest that decodes to its value. -/
def Obligations.CanonicalIsUniqueShortest : Prop :=
  (∀ (v : Variant) (x y : Word), canonical v x = canonical v y → x = y) ∧
  (∀ (v : Variant) (base len : Nat) (s t : State), exec (readInstr v base len) s = .next t → t.stat = 0 →
    encLen v t.c.val ≤ t.rlen.toNat ∧
    (t.rlen.toNat = encLen v t.c.val → memBytes s.mem base t.rlen.toNat = canonical v t.c.val))

/-! ## Both together -/

/-- R109: the unsigned round trip, whatever the bytes past the encoding hold; with a slice too short, `UnexpectedEndOfBuffer`. -/
def Obligations.UlebRoundTrip : Prop :=
  ∀ (x : Word) (base cap len : Nat) (s : State), s.phase = .idle → ulen x ≤ cap →
    base + cap ≤ 2 ^ s.aw → base + len ≤ 2 ^ s.aw →
    ∃ s1 s2, exec (.uleb128From x) s = .next s1 ∧ exec (.uleb128WriteInto base cap) s1 = .next s2 ∧
      s2.stat = 0 ∧ s2.rlen.toNat = ulen x ∧
      ∀ m : Memory, (∀ k, k < ulen x → memRead m (base + k) = memRead s2.mem (base + k)) →
        (ulen x ≤ len → ∃ s3, exec (.uleb128ReadFrom base len) { s2 with mem := m } = .next s3 ∧
          s3.stat = 0 ∧ s3.c = { vld := true, tag := .uleb, val := x } ∧ s3.rlen = s2.rlen) ∧
        (len < ulen x → ∃ s3, exec (.uleb128ReadFrom base len) { s2 with mem := m } = .next s3 ∧ s3.stat = 2)

/-- R128: the signed round trip, likewise. -/
def Obligations.SlebRoundTrip : Prop :=
  ∀ (x : Word) (base cap len : Nat) (s : State), s.phase = .idle → slen x ≤ cap →
    base + cap ≤ 2 ^ s.aw → base + len ≤ 2 ^ s.aw →
    ∃ s1 s2, exec (.sleb128From x) s = .next s1 ∧ exec (.sleb128WriteInto base cap) s1 = .next s2 ∧
      s2.stat = 0 ∧ s2.rlen.toNat = slen x ∧
      ∀ m : Memory, (∀ k, k < slen x → memRead m (base + k) = memRead s2.mem (base + k)) →
        (slen x ≤ len → ∃ s3, exec (.sleb128ReadFrom base len) { s2 with mem := m } = .next s3 ∧
          s3.stat = 0 ∧ s3.c = { vld := true, tag := .sleb, val := x } ∧ s3.rlen = s2.rlen) ∧
        (len < slen x → ∃ s3, exec (.sleb128ReadFrom base len) { s2 with mem := m } = .next s3 ∧ s3.stat = 2)

/-- R129, first direction: signed bytes read by the unsigned decoder. -/
def Obligations.SignedBytesReadUnsigned : Prop :=
  ∀ (x : Word) (base len : Nat) (s : State), s.phase = .idle → base + len ≤ 2 ^ s.aw → slen x ≤ len →
    memBytes s.mem base (slen x) = canonical .sleb x →
    (0 ≤ x.toInt → ∃ t, exec (.uleb128ReadFrom base len) s = .next t ∧ t.stat = 0 ∧
      t.c = { vld := true, tag := .uleb, val := x } ∧ t.rlen.toNat = slen x) ∧
    (x.toInt < 0 → slen x ≤ 9 → ∃ t, exec (.uleb128ReadFrom base len) s = .next t ∧ t.stat = 0 ∧
      t.c.val.toNat = x.toNat % 2 ^ (7 * slen x) ∧ t.c.val ≠ x) ∧
    (x.toInt < 0 → slen x = 10 → ∃ t, exec (.uleb128ReadFrom base len) s = .next t ∧ t.stat = 3)

/-- R129, second direction: unsigned bytes read by the signed decoder. -/
def Obligations.UnsignedBytesReadSigned : Prop :=
  ∀ (x : Word) (base len : Nat) (s : State), s.phase = .idle → base + len ≤ 2 ^ s.aw → ulen x ≤ len →
    memBytes s.mem base (ulen x) = canonical .uleb x →
    (0 ≤ x.toInt → slen x = ulen x → ∃ t, exec (.sleb128ReadFrom base len) s = .next t ∧ t.stat = 0 ∧
      t.c = { vld := true, tag := .sleb, val := x } ∧ t.rlen.toNat = ulen x) ∧
    (ulen x ≤ 9 → ¬(0 ≤ x.toInt ∧ slen x = ulen x) → ∃ t, exec (.sleb128ReadFrom base len) s = .next t ∧
      t.stat = 0 ∧ t.c.val.toInt < 0 ∧ t.c.val ≠ x) ∧
    (ulen x = 10 → ∃ t, exec (.sleb128ReadFrom base len) s = .next t ∧ t.stat = 3)

/-! ## The micro-sequencer refines the commands -/

/-- R186, R91, R181: a `WRITE_INTO` given to the micro-sequencer is idle again within ten micro-steps and agrees with the
transaction level in `STAT`, in the codec and `RVAL`, in `RLEN` and the whole memory on success, and outside the window always. -/
def Obligations.EncoderRefines : Prop :=
  ∀ (v : Variant) (base cap : Nat) (s t : State), exec (writeInstr v base cap) s = .next t →
    ∃ s0 u, acceptCommand (writeInstr v base cap) s = .next s0 ∧ runTicks 10 s0 = .next u ∧
      u.phase = .idle ∧ u.stat = t.stat ∧ u.c = t.c ∧ u.rval = t.rval ∧
      (t.stat = 0 → u.rlen = t.rlen ∧ sameMemory t u) ∧ sameOutside base cap t u

/-- R186, R93, R181: a `READ_FROM` given to the micro-sequencer is idle again within eleven micro-steps and agrees with the
transaction level in `STAT`, in the codec and `RVAL`, in the memory, and in `RLEN` on success. -/
def Obligations.DecoderRefines : Prop :=
  ∀ (v : Variant) (base len : Nat) (s t : State), exec (readInstr v base len) s = .next t →
    ∃ s0 u, acceptCommand (readInstr v base len) s = .next s0 ∧ runTicks 11 s0 = .next u ∧
      u.phase = .idle ∧ u.stat = t.stat ∧ u.c = t.c ∧ u.rval = t.rval ∧ u.mem = t.mem ∧
      (t.stat = 0 → u.rlen = t.rlen)

/-! ## The whole machine -/

/-- The invariant holds right after reset (R35, R170). -/
def Obligations.InvariantHoldsAtReset : Prop := Inv State.reset

/-- R40, R91, R93: every step keeps the invariant: the memory canonical and inside the address space, and a running encode or
decode where the spec says it is, `ACC[63 : 7*IDX] = 0` among it. -/
def Obligations.StepKeepsInvariant : Prop :=
  ∀ s t : State, Inv s → step s = .next t → Inv t

/-- The canonical form of the memory (the model's own, note 12): two memories in it that read the same are the same. -/
def Obligations.EqualReadsEqualMemory : Prop :=
  ∀ m n : Memory, m.wf → n.wf → (∀ a, memRead m a = memRead n a) → m = n

/-- R21: the codec is written as a whole and by a construction only: a `FROM`, a `READ_FROM` that succeeds, or the terminator of
a decode on the micro-sequencer, each with `STAT = 0`; besides these only a reset changes it. -/
def Obligations.OnlyConstructionWritesCodec : Prop :=
  ∀ s t : State, step s = .next t → t.c ≠ s.c →
    (∃ rest, s.inputs = .reset :: rest) ∨
    (t.stat = 0 ∧ t.c.vld = true ∧
      ((∃ p rest x, (s.inputs = .issue p :: rest ∨ s.inputs = .accept p :: rest) ∧
          decodeCmd p = fromInstr t.c.tag x ∧ t.c.val = x) ∨
       (∃ p rest base len, s.inputs = .issue p :: rest ∧ decodeCmd p = readInstr t.c.tag base len) ∨
       (∃ rest, s.inputs = .tick :: rest ∧ s.phase = .dec ∧ t.c.tag = s.mode)))

/-- R43, R48: an instruction that changes a byte of memory is a `WRITE_INTO`, and the byte is in its window at an index below 10. -/
def Obligations.OnlyWriteIntoWritesMemory : Prop :=
  ∀ (i : Instr) (s t : State) (a : Nat), exec i s = .next t → memRead t.mem a ≠ memRead s.mem a →
    ∃ v base cap, i = writeInstr v base cap ∧ base ≤ a ∧ a < base + cap ∧ a < base + 10

/-- R43: only a `READ_FROM` reads memory: every other instruction does the same to everything but the memory, whatever the
memory holds. -/
def Obligations.OnlyReadFromReadsMemory : Prop :=
  ∀ (i : Instr) (s t : State) (m : Memory), exec i s = .next t → (∀ v base len, i ≠ readInstr v base len) →
    ∃ u, exec i { s with mem := m } = .next u ∧ { u with mem := t.mem } = t

/-- R25, R140, R144: `FROM` and `VALUE` never fail, a `WRITE_INTO` ends with `OK` or `BufferTooSmall`, a `READ_FROM` with `OK`,
`UnexpectedEndOfBuffer` or `Overflow`; every command that completes leaves the block idle; no instruction ends in a fault. -/
def Obligations.StatusOfEachCommand : Prop :=
  (∀ (v : Variant) (x : Word) (s t : State),
    exec (fromInstr v x) s = .next t ∨ exec (valueInstr v) s = .next t → t.stat = 0 ∧ t.phase = .idle) ∧
  (∀ (v : Variant) (base cap : Nat) (s t : State), exec (writeInstr v base cap) s = .next t →
    (t.stat = 0 ∨ t.stat = 1) ∧ t.phase = .idle) ∧
  (∀ (v : Variant) (base len : Nat) (s t : State), exec (readInstr v base len) s = .next t →
    (t.stat = 0 ∨ t.stat = 2 ∨ t.stat = 3) ∧ t.phase = .idle) ∧
  (∀ (i : Instr) (s : State) (f : Fault), exec i s ≠ .fault f)

/-- R107: `RLEN` after a `WRITE_INTO` or `READ_FROM` that succeeds is from 1 to 10, and within the window. -/
def Obligations.ReturnedLengthInRange : Prop :=
  ∀ (v : Variant) (base size : Nat) (s t : State),
    exec (writeInstr v base size) s = .next t ∨ exec (readInstr v base size) s = .next t → t.stat = 0 →
    1 ≤ t.rlen.toNat ∧ t.rlen.toNat ≤ 10 ∧ t.rlen.toNat ≤ size

/-- R182: the micro-sequencer is never stuck: in every state a micro-step has a next state. -/
def Obligations.MicroStepCompletes : Prop :=
  ∀ s : State, ∃ t, tick s = .next t

/-- R6, R23, R29: no step changes the address width, and the host's remaining moves are its moves less the one taken. -/
def Obligations.StepKeepsAddressWidth : Prop :=
  ∀ s t : State, step s = .next t → t.aw = s.aw ∧ t.inputs = s.inputs.tail

/-- R35: the values the spec gives for reset. -/
def Obligations.ResetValues : Prop :=
  State.reset.c.vld = false ∧ State.reset.stat = 0 ∧ State.reset.phase = .idle

/-- R170, R171: the host's reset leaves the block idle with no codec and `STAT = 0`; the memory is not touched, but for the window
of a `WRITE_INTO` it cuts. What is no register of the block stays as it was (note 23). -/
def Obligations.ResetMove : Prop :=
  ∀ (s : State) (rest : List Input), s.inputs = .reset :: rest →
    ∃ t, step s = .next t ∧ t.c.vld = false ∧ t.stat = 0 ∧ t.phase = .idle ∧ t.inputs = rest ∧
      (s.phase ≠ .enc → t.mem = s.mem) ∧ (s.phase = .enc → sameOutside s.portBase s.portCap s t) ∧
      t.aw = s.aw ∧ t.portBase = s.portBase ∧ t.portCap = s.portCap ∧ t.portLen = s.portLen ∧ t.unitOut = s.unitOut

/-- R176, R183: the host writes any address of an idle block's memory and changes that byte alone; it is given no step when it
writes into the window of the running command or reads the destination window of a running `WRITE_INTO` (that no step is
a refusal: note 20). An access outside the address space is a fault of the model (note 17). -/
def Obligations.HostKeepsOffWindow : Prop :=
  (∀ (s : State) (rest : List Input) (a : Nat) (b : Byte), s.inputs = .hostWrite a b :: rest → s.phase = .idle →
    a < 2 ^ s.aw →
    ∃ t, step s = .next t ∧ memRead t.mem a = b ∧ sameOutside a 1 s t ∧
      t = { s with inputs := rest, mem := t.mem }) ∧
  (∀ (s : State) (rest : List Input) (a : Nat) (b : Byte), s.inputs = .hostWrite a b :: rest → a < 2 ^ s.aw →
    s.portBase ≤ a → (s.phase = .enc ∧ a < s.portBase + s.portCap ∨ s.phase = .dec ∧ a < s.portBase + s.portLen) →
    step s = .refused .windowOwned) ∧
  (∀ (s : State) (rest : List Input) (a : Nat), s.inputs = .hostRead a :: rest → a < 2 ^ s.aw →
    s.portBase ≤ a → s.phase = .enc → a < s.portBase + s.portCap → step s = .refused .windowOwned) ∧
  (∀ (s : State) (rest : List Input) (a : Nat) (b : Byte),
    s.inputs = .hostWrite a b :: rest ∨ s.inputs = .hostRead a :: rest → 2 ^ s.aw ≤ a →
    step s = .fault (.noSuchAddress a))
end

