-- ==== Sys2Proof/Laws/Bits.lean ====
section
/-! SUPPORT. The fields of an encoded byte, the two shifts as the library's shifts, and bounds on the encoder's loop. -/

namespace Sys2Proof

@[simp] theorem contOf_mkByte (c : Bool) (p : Group) : contOf (mkByte c p) = c := by
  cases c <;> revert p <;> decide

@[simp] theorem payloadOf_mkByte (c : Bool) (p : Group) : payloadOf (mkByte c p) = p := by
  cases c <;> revert p <;> decide

@[simp] theorem mkByte_contOf_payloadOf (b : Byte) : mkByte (contOf b) (payloadOf b) = b := by
  revert b
  decide

end Sys2Proof

namespace Sys2Proof.Machine

theorem lsr7_eq (v : Word) : lsr7 v = v >>> 7 := by
  apply BitVec.eq_of_getLsbD_eq
  intro j hj
  simp only [lsr7, BitVec.getLsbD_setWidth, BitVec.getLsbD_extractLsb', BitVec.getLsbD_ushiftRight]
  by_cases h : j < 57
  · simp [h, hj]
  · simp [h, BitVec.getLsbD_of_ge v (7 + j) (by omega)]

theorem asr7_eq (v : Word) : asr7 v = v.sshiftRight 7 := by
  apply BitVec.eq_of_getLsbD_eq
  intro j hj
  simp only [asr7, BitVec.getLsbD_signExtend, BitVec.getLsbD_sshiftRight, BitVec.msb_eq_getLsbD_last,
    BitVec.getLsbD_extractLsb']
  by_cases h : j < 57
  · simp [h, hj, show ¬ 64 ≤ j by omega, show 7 + j < 64 by omega]
  · simp [h, hj, show ¬ 64 ≤ j by omega, show ¬ 7 + j < 64 by omega]

/-- Every chunk step's byte is its group with the continuation bit clear exactly on the last (R85). -/
theorem chunk_byte (v : Variant) (rem : Word) :
    (chunk v rem).byte = mkByte (!(chunk v rem).last) (lowGroup rem) := by
  cases v <;> rfl

/-- The encoder's loop emits at least one byte and no more than its fuel. -/
theorem encodeLoop_length (v : Variant) (fuel : Nat) (rem : Word) :
    1 ≤ (encodeLoop v (fuel + 1) rem).length ∧ (encodeLoop v (fuel + 1) rem).length ≤ fuel + 1 := by
  induction fuel generalizing rem with
  | zero => unfold encodeLoop; split <;> simp [encodeLoop]
  | succ n ih =>
    unfold encodeLoop
    split
    · simp
    · have := ih (chunk v rem).rem
      simp only [List.length_cons]
      omega

/-- An encoding has 1 to 10 bytes (R66). -/
theorem encodeBytes_length (v : Variant) (x : Word) :
    1 ≤ (encodeBytes v x).length ∧ (encodeBytes v x).length ≤ 10 := encodeLoop_length v 9 x

end Sys2Proof.Machine
end

