-- ==== Sys2Proof/Laws/Memory.lean ====
section
/-! SUPPORT. The laws of the byte memory: read after write, that every operation keeps the canonical form, and where the entries
of the result lie. -/

namespace Sys2Proof.Machine

/-! Reading -/

theorem memRead_memErase (m : Memory) (a a' : Nat) :
    memRead (memErase m a) a' = if a' = a then unlistedByte else memRead m a' := by
  unfold memErase
  induction m with
  | nil => simp [memRead]
  | cons c m ih =>
    by_cases hc : c.1 = a
    · rw [List.filter_cons_of_neg (by simpa using hc), ih]
      by_cases ha : a' = a
      · simp [ha]
      · simp [ha, memRead, show ¬ c.1 = a' from fun h => ha (h ▸ hc)]
    · rw [List.filter_cons_of_pos (by simpa using hc)]
      by_cases h : c.1 = a'
      · simp [memRead, h, show ¬ a' = a from fun h' => hc (h.trans h')]
      · simpa [memRead, h] using ih

theorem memRead_memInsert_same (m : Memory) (a : Nat) (b : Byte) (h : ∀ c ∈ m, c.1 ≠ a) :
    memRead (memInsert a b m) a = b := by
  induction m with
  | nil => simp [memInsert, memRead]
  | cons c m ih =>
    have hc := h c (by simp)
    by_cases hlt : a < c.1
    · simp [memInsert, hlt, memRead]
    · simpa [memInsert, hlt, memRead, hc] using ih (fun d hd => h d (by simp [hd]))

theorem memRead_memInsert_ne (m : Memory) {a a' : Nat} (b : Byte) (h : a' ≠ a) :
    memRead (memInsert a b m) a' = memRead m a' := by
  induction m with
  | nil => simp [memInsert, memRead, Ne.symm h]
  | cons c m ih =>
    by_cases hlt : a < c.1
    · simp [memInsert, hlt, memRead, Ne.symm h]
    · simp [memInsert, hlt, memRead, ih]

theorem memErase_ne {m : Memory} {a : Nat} : ∀ c ∈ memErase m a, c.1 ≠ a := by
  intro c hc
  simpa using (List.mem_filter.1 hc).2

/-- A read after a write: the byte written at the address written, the old byte everywhere else. -/
theorem memRead_memWrite (m : Memory) (a a' : Nat) (b : Byte) :
    memRead (memWrite m a b) a' = if a' = a then b else memRead m a' := by
  unfold memWrite
  by_cases hb : b = unlistedByte
  · simp [hb, memRead_memErase]
  · by_cases ha : a' = a
    · subst ha
      simp [hb, memRead_memInsert_same _ _ _ memErase_ne]
    · simp [hb, ha, memRead_memInsert_ne _ _ ha, memRead_memErase]

@[simp] theorem memRead_memWrite_same (m : Memory) (a : Nat) (b : Byte) :
    memRead (memWrite m a b) a = b := by simp [memRead_memWrite]

theorem memRead_memWrite_ne (m : Memory) {a a' : Nat} (b : Byte) (h : a' ≠ a) :
    memRead (memWrite m a b) a' = memRead m a' := by simp [memRead_memWrite, h]

/-- A run of writes leaves every address outside it alone. -/
theorem memRead_memWriteBytes_outside (bs : List Byte) (m : Memory) (base a : Nat)
    (h : ¬(base ≤ a ∧ a < base + bs.length)) : memRead (memWriteBytes m base bs) a = memRead m a := by
  induction bs generalizing m base with
  | nil => rfl
  | cons b bs ih =>
    simp only [List.length_cons] at h
    rw [memWriteBytes, ih _ _ (by omega), memRead_memWrite_ne _ _ (by omega)]

/-- A run of writes puts its `k`-th byte at the `k`-th address. -/
theorem memRead_memWriteBytes_inside (bs : List Byte) (m : Memory) (base k : Nat) (h : k < bs.length) :
    memRead (memWriteBytes m base bs) (base + k) = bs[k] := by
  induction bs generalizing m base k with
  | nil => simp at h
  | cons b bs ih =>
    cases k with
    | zero => rw [memWriteBytes, memRead_memWriteBytes_outside _ _ _ _ (by omega)]; simp
    | succ k =>
      have := ih (memWrite m base b) (base + 1) k (by simpa using h)
      rw [memWriteBytes, show base + (k + 1) = base + 1 + k by omega, this]
      rfl

/-- A scrambled window leaves every address outside it alone. -/
theorem memRead_memScramble_outside (m : Memory) (d base size a : Nat)
    (h : ¬(base ≤ a ∧ a < base + size)) : memRead (memScramble m d base size) a = memRead m a := by
  induction size with
  | zero => rfl
  | succ n ih => rw [memScramble, memRead_memWrite_ne _ _ (by omega), ih (by omega)]

/-- A scrambled window holds a free value at each of its addresses. -/
theorem memRead_memScramble_inside (m : Memory) (d base size a : Nat)
    (h : base ≤ a ∧ a < base + size) : memRead (memScramble m d base size) a = Config.freeByte d a := by
  induction size with
  | zero => omega
  | succ n ih =>
    rw [memScramble, memRead_memWrite]
    by_cases ha : a = base + n
    · simp [ha]
    · simp [ha, ih (by omega)]

/-! Where the entries lie -/

theorem mem_memInsert {m : Memory} {a : Nat} {b : Byte} {c : Host.Cell} :
    c ∈ memInsert a b m ↔ c = (a, b) ∨ c ∈ m := by
  induction m with
  | nil => simp [memInsert]
  | cons d m ih =>
    by_cases h : a < d.1
    · simp [memInsert, h]
    · simp only [memInsert, h, if_false, List.mem_cons, ih]
      tauto

theorem mem_memWrite {m : Memory} {a : Nat} {b : Byte} {c : Host.Cell} (h : c ∈ memWrite m a b) :
    (c = (a, b) ∧ b ≠ unlistedByte) ∨ c ∈ m := by
  unfold memWrite at h
  split at h
  · exact .inr (List.mem_filter.1 h).1
  · rcases mem_memInsert.1 h with rfl | h
    · exact .inl ⟨rfl, ‹_›⟩
    · exact .inr (List.mem_filter.1 h).1

/-- A write inside a range of addresses keeps every entry in the range. -/
theorem memWrite_below {m : Memory} {a : Nat} {b : Byte} {n : Nat} (ha : a < n) (hm : ∀ c ∈ m, c.1 < n) :
    ∀ c ∈ memWrite m a b, c.1 < n := by
  intro c hc
  rcases mem_memWrite hc with ⟨rfl, -⟩ | hc
  · exact ha
  · exact hm c hc

theorem memWriteBytes_below {bs : List Byte} {m : Memory} {base n : Nat} (hb : base + bs.length ≤ n)
    (hm : ∀ c ∈ m, c.1 < n) : ∀ c ∈ memWriteBytes m base bs, c.1 < n := by
  induction bs generalizing m base with
  | nil => exact hm
  | cons b bs ih =>
    simp only [List.length_cons] at hb
    exact ih (by omega) (memWrite_below (by omega) hm)

theorem memScramble_below {m : Memory} {d base size n : Nat} (hb : base + size ≤ n)
    (hm : ∀ c ∈ m, c.1 < n) : ∀ c ∈ memScramble m d base size, c.1 < n := by
  induction size with
  | zero => exact hm
  | succ k ih => exact memWrite_below (by omega) (ih (by omega))

/-! The canonical form -/

theorem memInsert_pairwise {m : Memory} {a : Nat} {b : Byte} (hm : m.Pairwise (fun c d => c.1 < d.1))
    (ha : ∀ c ∈ m, c.1 ≠ a) : (memInsert a b m).Pairwise (fun c d => c.1 < d.1) := by
  induction m with
  | nil => simp [memInsert]
  | cons c m ih =>
    have hcm := List.pairwise_cons.1 hm
    by_cases h : a < c.1
    · rw [memInsert, if_pos h]
      refine List.pairwise_cons.2 ⟨fun d hd => ?_, hm⟩
      rcases List.mem_cons.1 hd with rfl | hd
      · exact h
      · exact Nat.lt_trans h (hcm.1 d hd)
    · rw [memInsert, if_neg h]
      refine List.pairwise_cons.2 ⟨fun d hd => ?_, ih hcm.2 (fun d hd => ha d (by simp [hd]))⟩
      rcases mem_memInsert.1 hd with rfl | hd
      · have := ha c (by simp)
        simp only
        omega
      · exact hcm.1 d hd

theorem memErase_wf {m : Memory} (a : Nat) (h : m.wf) : (memErase m a).wf :=
  ⟨h.1.filter _, fun c hc => h.2 c (List.mem_filter.1 hc).1⟩

/-- A write keeps the canonical form. -/
theorem memWrite_wf {m : Memory} (a : Nat) (b : Byte) (h : m.wf) : (memWrite m a b).wf := by
  refine ⟨?_, fun c hc => ?_⟩
  · unfold memWrite
    split
    · exact (memErase_wf a h).1
    · exact memInsert_pairwise (memErase_wf a h).1 memErase_ne
  · rcases mem_memWrite hc with ⟨rfl, hb⟩ | hc
    · exact hb
    · exact h.2 c hc

theorem memWriteBytes_wf {bs : List Byte} {m : Memory} (base : Nat) (h : m.wf) :
    (memWriteBytes m base bs).wf := by
  induction bs generalizing m base with
  | nil => exact h
  | cons b bs ih => exact ih _ (memWrite_wf base b h)

theorem memScramble_wf {m : Memory} (d base size : Nat) (h : m.wf) : (memScramble m d base size).wf := by
  induction size with
  | zero => exact h
  | succ k ih => exact memWrite_wf _ _ ih

theorem reset_mem_wf : State.reset.mem.wf := by decide

end Sys2Proof.Machine
end

