-- ==== Sys2Proof/Laws/State.lean ====
section
/-! SUPPORT. One lemma per field of State and per named operation on it, so that no proof unfolds a record update. -/

namespace Sys2Proof.Machine

/-! holdCodec -/

@[simp] theorem holdCodec_aw (v : Variant) (x : Word) (s : State) : (holdCodec v x s).aw = s.aw := rfl
@[simp] theorem holdCodec_c (v : Variant) (x : Word) (s : State) :
    (holdCodec v x s).c = { vld := true, tag := v, val := x } := rfl
@[simp] theorem holdCodec_stat (v : Variant) (x : Word) (s : State) : (holdCodec v x s).stat = s.stat := rfl
@[simp] theorem holdCodec_rlen (v : Variant) (x : Word) (s : State) : (holdCodec v x s).rlen = s.rlen := rfl
@[simp] theorem holdCodec_rval (v : Variant) (x : Word) (s : State) : (holdCodec v x s).rval = s.rval := rfl
@[simp] theorem holdCodec_phase (v : Variant) (x : Word) (s : State) : (holdCodec v x s).phase = s.phase := rfl
@[simp] theorem holdCodec_mode (v : Variant) (x : Word) (s : State) : (holdCodec v x s).mode = s.mode := rfl
@[simp] theorem holdCodec_rem (v : Variant) (x : Word) (s : State) : (holdCodec v x s).rem = s.rem := rfl
@[simp] theorem holdCodec_acc (v : Variant) (x : Word) (s : State) : (holdCodec v x s).acc = s.acc := rfl
@[simp] theorem holdCodec_idx (v : Variant) (x : Word) (s : State) : (holdCodec v x s).idx = s.idx := rfl
@[simp] theorem holdCodec_portBase (v : Variant) (x : Word) (s : State) : (holdCodec v x s).portBase = s.portBase := rfl
@[simp] theorem holdCodec_portCap (v : Variant) (x : Word) (s : State) : (holdCodec v x s).portCap = s.portCap := rfl
@[simp] theorem holdCodec_portLen (v : Variant) (x : Word) (s : State) : (holdCodec v x s).portLen = s.portLen := rfl
@[simp] theorem holdCodec_mem (v : Variant) (x : Word) (s : State) : (holdCodec v x s).mem = s.mem := rfl
@[simp] theorem holdCodec_unitOut (v : Variant) (x : Word) (s : State) : (holdCodec v x s).unitOut = s.unitOut := rfl
@[simp] theorem holdCodec_inputs (v : Variant) (x : Word) (s : State) : (holdCodec v x s).inputs = s.inputs := rfl
@[simp] theorem holdCodec_draws (v : Variant) (x : Word) (s : State) : (holdCodec v x s).draws = s.draws := rfl

/-! returnOk -/

@[simp] theorem returnOk_aw (s : State) : (returnOk s).aw = s.aw := rfl
@[simp] theorem returnOk_c (s : State) : (returnOk s).c = s.c := rfl
@[simp] theorem returnOk_stat (s : State) : (returnOk s).stat = statOk := rfl
@[simp] theorem returnOk_rlen (s : State) : (returnOk s).rlen = s.rlen := rfl
@[simp] theorem returnOk_rval (s : State) : (returnOk s).rval = s.rval := rfl
@[simp] theorem returnOk_phase (s : State) : (returnOk s).phase = .idle := rfl
@[simp] theorem returnOk_mode (s : State) : (returnOk s).mode = s.mode := rfl
@[simp] theorem returnOk_rem (s : State) : (returnOk s).rem = s.rem := rfl
@[simp] theorem returnOk_acc (s : State) : (returnOk s).acc = s.acc := rfl
@[simp] theorem returnOk_idx (s : State) : (returnOk s).idx = s.idx := rfl
@[simp] theorem returnOk_portBase (s : State) : (returnOk s).portBase = s.portBase := rfl
@[simp] theorem returnOk_portCap (s : State) : (returnOk s).portCap = s.portCap := rfl
@[simp] theorem returnOk_portLen (s : State) : (returnOk s).portLen = s.portLen := rfl
@[simp] theorem returnOk_mem (s : State) : (returnOk s).mem = s.mem := rfl
@[simp] theorem returnOk_unitOut (s : State) : (returnOk s).unitOut = s.unitOut := rfl
@[simp] theorem returnOk_inputs (s : State) : (returnOk s).inputs = s.inputs := rfl
@[simp] theorem returnOk_draws (s : State) : (returnOk s).draws = s.draws := rfl

/-! returnLen -/

@[simp] theorem returnLen_aw (n : BitVec 4) (s : State) : (returnLen n s).aw = s.aw := rfl
@[simp] theorem returnLen_c (n : BitVec 4) (s : State) : (returnLen n s).c = s.c := rfl
@[simp] theorem returnLen_stat (n : BitVec 4) (s : State) : (returnLen n s).stat = statOk := rfl
@[simp] theorem returnLen_rlen (n : BitVec 4) (s : State) : (returnLen n s).rlen = n := rfl
@[simp] theorem returnLen_rval (n : BitVec 4) (s : State) : (returnLen n s).rval = s.rval := rfl
@[simp] theorem returnLen_phase (n : BitVec 4) (s : State) : (returnLen n s).phase = .idle := rfl
@[simp] theorem returnLen_mode (n : BitVec 4) (s : State) : (returnLen n s).mode = s.mode := rfl
@[simp] theorem returnLen_rem (n : BitVec 4) (s : State) : (returnLen n s).rem = s.rem := rfl
@[simp] theorem returnLen_acc (n : BitVec 4) (s : State) : (returnLen n s).acc = s.acc := rfl
@[simp] theorem returnLen_idx (n : BitVec 4) (s : State) : (returnLen n s).idx = s.idx := rfl
@[simp] theorem returnLen_portBase (n : BitVec 4) (s : State) : (returnLen n s).portBase = s.portBase := rfl
@[simp] theorem returnLen_portCap (n : BitVec 4) (s : State) : (returnLen n s).portCap = s.portCap := rfl
@[simp] theorem returnLen_portLen (n : BitVec 4) (s : State) : (returnLen n s).portLen = s.portLen := rfl
@[simp] theorem returnLen_mem (n : BitVec 4) (s : State) : (returnLen n s).mem = s.mem := rfl
@[simp] theorem returnLen_unitOut (n : BitVec 4) (s : State) : (returnLen n s).unitOut = s.unitOut := rfl
@[simp] theorem returnLen_inputs (n : BitVec 4) (s : State) : (returnLen n s).inputs = s.inputs := rfl
@[simp] theorem returnLen_draws (n : BitVec 4) (s : State) : (returnLen n s).draws = s.draws := rfl

/-! raiseError -/

@[simp] theorem raiseError_aw (e : ErrorKind) (s : State) : (raiseError e s).aw = s.aw := rfl
@[simp] theorem raiseError_c (e : ErrorKind) (s : State) : (raiseError e s).c = s.c := rfl
@[simp] theorem raiseError_stat (e : ErrorKind) (s : State) : (raiseError e s).stat = statCode e := rfl
@[simp] theorem raiseError_rlen (e : ErrorKind) (s : State) : (raiseError e s).rlen = Config.freeRlen s.draws := rfl
@[simp] theorem raiseError_rval (e : ErrorKind) (s : State) : (raiseError e s).rval = s.rval := rfl
@[simp] theorem raiseError_phase (e : ErrorKind) (s : State) : (raiseError e s).phase = .idle := rfl
@[simp] theorem raiseError_mode (e : ErrorKind) (s : State) : (raiseError e s).mode = s.mode := rfl
@[simp] theorem raiseError_rem (e : ErrorKind) (s : State) : (raiseError e s).rem = s.rem := rfl
@[simp] theorem raiseError_acc (e : ErrorKind) (s : State) : (raiseError e s).acc = s.acc := rfl
@[simp] theorem raiseError_idx (e : ErrorKind) (s : State) : (raiseError e s).idx = s.idx := rfl
@[simp] theorem raiseError_portBase (e : ErrorKind) (s : State) : (raiseError e s).portBase = s.portBase := rfl
@[simp] theorem raiseError_portCap (e : ErrorKind) (s : State) : (raiseError e s).portCap = s.portCap := rfl
@[simp] theorem raiseError_portLen (e : ErrorKind) (s : State) : (raiseError e s).portLen = s.portLen := rfl
@[simp] theorem raiseError_mem (e : ErrorKind) (s : State) : (raiseError e s).mem = s.mem := rfl
@[simp] theorem raiseError_unitOut (e : ErrorKind) (s : State) : (raiseError e s).unitOut = s.unitOut := rfl
@[simp] theorem raiseError_inputs (e : ErrorKind) (s : State) : (raiseError e s).inputs = s.inputs := rfl
@[simp] theorem raiseError_draws (e : ErrorKind) (s : State) : (raiseError e s).draws = s.draws + 1 := rfl

/-! scrambleWindow -/

@[simp] theorem scrambleWindow_aw (base size : Nat) (s : State) : (scrambleWindow base size s).aw = s.aw := rfl
@[simp] theorem scrambleWindow_c (base size : Nat) (s : State) : (scrambleWindow base size s).c = s.c := rfl
@[simp] theorem scrambleWindow_stat (base size : Nat) (s : State) : (scrambleWindow base size s).stat = s.stat := rfl
@[simp] theorem scrambleWindow_rlen (base size : Nat) (s : State) : (scrambleWindow base size s).rlen = s.rlen := rfl
@[simp] theorem scrambleWindow_rval (base size : Nat) (s : State) : (scrambleWindow base size s).rval = s.rval := rfl
@[simp] theorem scrambleWindow_phase (base size : Nat) (s : State) : (scrambleWindow base size s).phase = s.phase := rfl
@[simp] theorem scrambleWindow_mode (base size : Nat) (s : State) : (scrambleWindow base size s).mode = s.mode := rfl
@[simp] theorem scrambleWindow_rem (base size : Nat) (s : State) : (scrambleWindow base size s).rem = s.rem := rfl
@[simp] theorem scrambleWindow_acc (base size : Nat) (s : State) : (scrambleWindow base size s).acc = s.acc := rfl
@[simp] theorem scrambleWindow_idx (base size : Nat) (s : State) : (scrambleWindow base size s).idx = s.idx := rfl
@[simp] theorem scrambleWindow_portBase (base size : Nat) (s : State) :
    (scrambleWindow base size s).portBase = s.portBase := rfl
@[simp] theorem scrambleWindow_portCap (base size : Nat) (s : State) :
    (scrambleWindow base size s).portCap = s.portCap := rfl
@[simp] theorem scrambleWindow_portLen (base size : Nat) (s : State) :
    (scrambleWindow base size s).portLen = s.portLen := rfl
@[simp] theorem scrambleWindow_mem (base size : Nat) (s : State) :
    (scrambleWindow base size s).mem = memScramble s.mem s.draws base size := rfl
@[simp] theorem scrambleWindow_unitOut (base size : Nat) (s : State) :
    (scrambleWindow base size s).unitOut = s.unitOut := rfl
@[simp] theorem scrambleWindow_inputs (base size : Nat) (s : State) :
    (scrambleWindow base size s).inputs = s.inputs := rfl
@[simp] theorem scrambleWindow_draws (base size : Nat) (s : State) :
    (scrambleWindow base size s).draws = s.draws + 1 := rfl

/-! forgetEncoder -/

@[simp] theorem forgetEncoder_aw (v : Variant) (s : State) : (forgetEncoder v s).aw = s.aw := rfl
@[simp] theorem forgetEncoder_c (v : Variant) (s : State) : (forgetEncoder v s).c = s.c := rfl
@[simp] theorem forgetEncoder_stat (v : Variant) (s : State) : (forgetEncoder v s).stat = s.stat := rfl
@[simp] theorem forgetEncoder_rlen (v : Variant) (s : State) : (forgetEncoder v s).rlen = s.rlen := rfl
@[simp] theorem forgetEncoder_rval (v : Variant) (s : State) : (forgetEncoder v s).rval = s.rval := rfl
@[simp] theorem forgetEncoder_phase (v : Variant) (s : State) : (forgetEncoder v s).phase = s.phase := rfl
@[simp] theorem forgetEncoder_mode (v : Variant) (s : State) : (forgetEncoder v s).mode = v := rfl
@[simp] theorem forgetEncoder_rem (v : Variant) (s : State) : (forgetEncoder v s).rem = Config.freeRem s.draws := rfl
@[simp] theorem forgetEncoder_acc (v : Variant) (s : State) : (forgetEncoder v s).acc = s.acc := rfl
@[simp] theorem forgetEncoder_idx (v : Variant) (s : State) :
    (forgetEncoder v s).idx = BitVec.ofNat 4 (Config.freeEndIdx s.draws).val := rfl
@[simp] theorem forgetEncoder_portBase (v : Variant) (s : State) : (forgetEncoder v s).portBase = s.portBase := rfl
@[simp] theorem forgetEncoder_portCap (v : Variant) (s : State) : (forgetEncoder v s).portCap = s.portCap := rfl
@[simp] theorem forgetEncoder_portLen (v : Variant) (s : State) : (forgetEncoder v s).portLen = s.portLen := rfl
@[simp] theorem forgetEncoder_mem (v : Variant) (s : State) : (forgetEncoder v s).mem = s.mem := rfl
@[simp] theorem forgetEncoder_unitOut (v : Variant) (s : State) : (forgetEncoder v s).unitOut = s.unitOut := rfl
@[simp] theorem forgetEncoder_inputs (v : Variant) (s : State) : (forgetEncoder v s).inputs = s.inputs := rfl
@[simp] theorem forgetEncoder_draws (v : Variant) (s : State) : (forgetEncoder v s).draws = s.draws + 1 := rfl

/-! forgetDecoder -/

@[simp] theorem forgetDecoder_aw (v : Variant) (s : State) : (forgetDecoder v s).aw = s.aw := rfl
@[simp] theorem forgetDecoder_c (v : Variant) (s : State) : (forgetDecoder v s).c = s.c := rfl
@[simp] theorem forgetDecoder_stat (v : Variant) (s : State) : (forgetDecoder v s).stat = s.stat := rfl
@[simp] theorem forgetDecoder_rlen (v : Variant) (s : State) : (forgetDecoder v s).rlen = s.rlen := rfl
@[simp] theorem forgetDecoder_rval (v : Variant) (s : State) : (forgetDecoder v s).rval = s.rval := rfl
@[simp] theorem forgetDecoder_phase (v : Variant) (s : State) : (forgetDecoder v s).phase = s.phase := rfl
@[simp] theorem forgetDecoder_mode (v : Variant) (s : State) : (forgetDecoder v s).mode = v := rfl
@[simp] theorem forgetDecoder_rem (v : Variant) (s : State) : (forgetDecoder v s).rem = s.rem := rfl
@[simp] theorem forgetDecoder_acc (v : Variant) (s : State) : (forgetDecoder v s).acc = Config.freeAcc s.draws := rfl
@[simp] theorem forgetDecoder_idx (v : Variant) (s : State) :
    (forgetDecoder v s).idx = BitVec.ofNat 4 (Config.freeEndIdx s.draws).val := rfl
@[simp] theorem forgetDecoder_portBase (v : Variant) (s : State) : (forgetDecoder v s).portBase = s.portBase := rfl
@[simp] theorem forgetDecoder_portCap (v : Variant) (s : State) : (forgetDecoder v s).portCap = s.portCap := rfl
@[simp] theorem forgetDecoder_portLen (v : Variant) (s : State) : (forgetDecoder v s).portLen = s.portLen := rfl
@[simp] theorem forgetDecoder_mem (v : Variant) (s : State) : (forgetDecoder v s).mem = s.mem := rfl
@[simp] theorem forgetDecoder_unitOut (v : Variant) (s : State) : (forgetDecoder v s).unitOut = s.unitOut := rfl
@[simp] theorem forgetDecoder_inputs (v : Variant) (s : State) : (forgetDecoder v s).inputs = s.inputs := rfl
@[simp] theorem forgetDecoder_draws (v : Variant) (s : State) : (forgetDecoder v s).draws = s.draws + 1 := rfl

/-! resetBlock -/

@[simp] theorem resetBlock_aw (s : State) : (resetBlock s).aw = s.aw := rfl
@[simp] theorem resetBlock_c (s : State) :
    (resetBlock s).c = { vld := false, tag := variantOfBit (Config.freeTag s.draws), val := Config.freeVal s.draws } := rfl
@[simp] theorem resetBlock_stat (s : State) : (resetBlock s).stat = statOk := rfl
@[simp] theorem resetBlock_rlen (s : State) : (resetBlock s).rlen = Config.freeRlen s.draws := rfl
@[simp] theorem resetBlock_rval (s : State) : (resetBlock s).rval = Config.freeRval s.draws := rfl
@[simp] theorem resetBlock_phase (s : State) : (resetBlock s).phase = .idle := rfl
@[simp] theorem resetBlock_mode (s : State) : (resetBlock s).mode = variantOfBit (Config.freeMode s.draws) := rfl
@[simp] theorem resetBlock_rem (s : State) : (resetBlock s).rem = Config.freeRem s.draws := rfl
@[simp] theorem resetBlock_acc (s : State) : (resetBlock s).acc = Config.freeAcc s.draws := rfl
@[simp] theorem resetBlock_idx (s : State) : (resetBlock s).idx = Config.freeIdx s.draws := rfl
@[simp] theorem resetBlock_portBase (s : State) : (resetBlock s).portBase = s.portBase := rfl
@[simp] theorem resetBlock_portCap (s : State) : (resetBlock s).portCap = s.portCap := rfl
@[simp] theorem resetBlock_portLen (s : State) : (resetBlock s).portLen = s.portLen := rfl
@[simp] theorem resetBlock_mem (s : State) : (resetBlock s).mem = cutWindow s := rfl
@[simp] theorem resetBlock_unitOut (s : State) : (resetBlock s).unitOut = s.unitOut := rfl
@[simp] theorem resetBlock_inputs (s : State) : (resetBlock s).inputs = s.inputs := rfl
@[simp] theorem resetBlock_draws (s : State) : (resetBlock s).draws = s.draws + 1 := rfl

/-! deliverChunk -/

@[simp] theorem deliverChunk_aw (k : Chunk) (s : State) : (deliverChunk k s).aw = s.aw := rfl
@[simp] theorem deliverChunk_c (k : Chunk) (s : State) : (deliverChunk k s).c = s.c := rfl
@[simp] theorem deliverChunk_stat (k : Chunk) (s : State) : (deliverChunk k s).stat = s.stat := rfl
@[simp] theorem deliverChunk_rlen (k : Chunk) (s : State) : (deliverChunk k s).rlen = s.rlen := rfl
@[simp] theorem deliverChunk_rval (k : Chunk) (s : State) : (deliverChunk k s).rval = s.rval := rfl
@[simp] theorem deliverChunk_phase (k : Chunk) (s : State) : (deliverChunk k s).phase = s.phase := rfl
@[simp] theorem deliverChunk_mode (k : Chunk) (s : State) : (deliverChunk k s).mode = s.mode := rfl
@[simp] theorem deliverChunk_rem (k : Chunk) (s : State) : (deliverChunk k s).rem = s.rem := rfl
@[simp] theorem deliverChunk_acc (k : Chunk) (s : State) : (deliverChunk k s).acc = s.acc := rfl
@[simp] theorem deliverChunk_idx (k : Chunk) (s : State) : (deliverChunk k s).idx = s.idx := rfl
@[simp] theorem deliverChunk_portBase (k : Chunk) (s : State) : (deliverChunk k s).portBase = s.portBase := rfl
@[simp] theorem deliverChunk_portCap (k : Chunk) (s : State) : (deliverChunk k s).portCap = s.portCap := rfl
@[simp] theorem deliverChunk_portLen (k : Chunk) (s : State) : (deliverChunk k s).portLen = s.portLen := rfl
@[simp] theorem deliverChunk_mem (k : Chunk) (s : State) : (deliverChunk k s).mem = s.mem := rfl
@[simp] theorem deliverChunk_unitOut (k : Chunk) (s : State) :
    (deliverChunk k s).unitOut = { s.unitOut with group := k.group, rem := k.rem, last := k.last, byte := k.byte } := rfl
@[simp] theorem deliverChunk_inputs (k : Chunk) (s : State) : (deliverChunk k s).inputs = s.inputs := rfl
@[simp] theorem deliverChunk_draws (k : Chunk) (s : State) : (deliverChunk k s).draws = s.draws := rfl

/-! deliverAcc -/

@[simp] theorem deliverAcc_aw (acc : Word) (s : State) : (deliverAcc acc s).aw = s.aw := rfl
@[simp] theorem deliverAcc_c (acc : Word) (s : State) : (deliverAcc acc s).c = s.c := rfl
@[simp] theorem deliverAcc_stat (acc : Word) (s : State) : (deliverAcc acc s).stat = s.stat := rfl
@[simp] theorem deliverAcc_rlen (acc : Word) (s : State) : (deliverAcc acc s).rlen = s.rlen := rfl
@[simp] theorem deliverAcc_rval (acc : Word) (s : State) : (deliverAcc acc s).rval = s.rval := rfl
@[simp] theorem deliverAcc_phase (acc : Word) (s : State) : (deliverAcc acc s).phase = s.phase := rfl
@[simp] theorem deliverAcc_mode (acc : Word) (s : State) : (deliverAcc acc s).mode = s.mode := rfl
@[simp] theorem deliverAcc_rem (acc : Word) (s : State) : (deliverAcc acc s).rem = s.rem := rfl
@[simp] theorem deliverAcc_acc (acc : Word) (s : State) : (deliverAcc acc s).acc = s.acc := rfl
@[simp] theorem deliverAcc_idx (acc : Word) (s : State) : (deliverAcc acc s).idx = s.idx := rfl
@[simp] theorem deliverAcc_portBase (acc : Word) (s : State) : (deliverAcc acc s).portBase = s.portBase := rfl
@[simp] theorem deliverAcc_portCap (acc : Word) (s : State) : (deliverAcc acc s).portCap = s.portCap := rfl
@[simp] theorem deliverAcc_portLen (acc : Word) (s : State) : (deliverAcc acc s).portLen = s.portLen := rfl
@[simp] theorem deliverAcc_mem (acc : Word) (s : State) : (deliverAcc acc s).mem = s.mem := rfl
@[simp] theorem deliverAcc_unitOut (acc : Word) (s : State) :
    (deliverAcc acc s).unitOut = { s.unitOut with acc := acc } := rfl
@[simp] theorem deliverAcc_inputs (acc : Word) (s : State) : (deliverAcc acc s).inputs = s.inputs := rfl
@[simp] theorem deliverAcc_draws (acc : Word) (s : State) : (deliverAcc acc s).draws = s.draws := rfl

/-! takeByte -/

@[simp] theorem takeByte_aw (b : Byte) (s : State) : (takeByte b s).aw = s.aw := rfl
@[simp] theorem takeByte_c (b : Byte) (s : State) : (takeByte b s).c = s.c := rfl
@[simp] theorem takeByte_stat (b : Byte) (s : State) : (takeByte b s).stat = s.stat := rfl
@[simp] theorem takeByte_rlen (b : Byte) (s : State) : (takeByte b s).rlen = s.rlen := rfl
@[simp] theorem takeByte_rval (b : Byte) (s : State) : (takeByte b s).rval = s.rval := rfl
@[simp] theorem takeByte_phase (b : Byte) (s : State) : (takeByte b s).phase = s.phase := rfl
@[simp] theorem takeByte_mode (b : Byte) (s : State) : (takeByte b s).mode = s.mode := rfl
@[simp] theorem takeByte_rem (b : Byte) (s : State) : (takeByte b s).rem = s.rem := rfl
@[simp] theorem takeByte_acc (b : Byte) (s : State) : (takeByte b s).acc = accumulate s.acc s.idx.toNat b := rfl
@[simp] theorem takeByte_idx (b : Byte) (s : State) : (takeByte b s).idx = s.idx + 1 := rfl
@[simp] theorem takeByte_portBase (b : Byte) (s : State) : (takeByte b s).portBase = s.portBase := rfl
@[simp] theorem takeByte_portCap (b : Byte) (s : State) : (takeByte b s).portCap = s.portCap := rfl
@[simp] theorem takeByte_portLen (b : Byte) (s : State) : (takeByte b s).portLen = s.portLen := rfl
@[simp] theorem takeByte_mem (b : Byte) (s : State) : (takeByte b s).mem = s.mem := rfl
@[simp] theorem takeByte_unitOut (b : Byte) (s : State) : (takeByte b s).unitOut = s.unitOut := rfl
@[simp] theorem takeByte_inputs (b : Byte) (s : State) : (takeByte b s).inputs = s.inputs := rfl
@[simp] theorem takeByte_draws (b : Byte) (s : State) : (takeByte b s).draws = s.draws := rfl

/-! finishDecode -/

@[simp] theorem finishDecode_aw (p : Group) (s : State) : (finishDecode p s).aw = s.aw := rfl
@[simp] theorem finishDecode_c (p : Group) (s : State) :
    (finishDecode p s).c = { vld := true, tag := s.mode, val := finishAcc s.mode s.acc s.idx.toNat p } := rfl
@[simp] theorem finishDecode_stat (p : Group) (s : State) : (finishDecode p s).stat = statOk := rfl
@[simp] theorem finishDecode_rlen (p : Group) (s : State) : (finishDecode p s).rlen = s.idx := rfl
@[simp] theorem finishDecode_rval (p : Group) (s : State) : (finishDecode p s).rval = s.rval := rfl
@[simp] theorem finishDecode_phase (p : Group) (s : State) : (finishDecode p s).phase = .idle := rfl
@[simp] theorem finishDecode_mode (p : Group) (s : State) : (finishDecode p s).mode = s.mode := rfl
@[simp] theorem finishDecode_rem (p : Group) (s : State) : (finishDecode p s).rem = s.rem := rfl
@[simp] theorem finishDecode_acc (p : Group) (s : State) :
    (finishDecode p s).acc = finishAcc s.mode s.acc s.idx.toNat p := rfl
@[simp] theorem finishDecode_idx (p : Group) (s : State) : (finishDecode p s).idx = s.idx := rfl
@[simp] theorem finishDecode_portBase (p : Group) (s : State) : (finishDecode p s).portBase = s.portBase := rfl
@[simp] theorem finishDecode_portCap (p : Group) (s : State) : (finishDecode p s).portCap = s.portCap := rfl
@[simp] theorem finishDecode_portLen (p : Group) (s : State) : (finishDecode p s).portLen = s.portLen := rfl
@[simp] theorem finishDecode_mem (p : Group) (s : State) : (finishDecode p s).mem = s.mem := rfl
@[simp] theorem finishDecode_unitOut (p : Group) (s : State) : (finishDecode p s).unitOut = s.unitOut := rfl
@[simp] theorem finishDecode_inputs (p : Group) (s : State) : (finishDecode p s).inputs = s.inputs := rfl
@[simp] theorem finishDecode_draws (p : Group) (s : State) : (finishDecode p s).draws = s.draws := rfl

/-! emitChunk -/

@[simp] theorem emitChunk_aw (k : Chunk) (s : State) : (emitChunk k s).aw = s.aw := rfl
@[simp] theorem emitChunk_c (k : Chunk) (s : State) : (emitChunk k s).c = s.c := rfl
@[simp] theorem emitChunk_stat (k : Chunk) (s : State) : (emitChunk k s).stat = s.stat := rfl
@[simp] theorem emitChunk_rlen (k : Chunk) (s : State) : (emitChunk k s).rlen = s.rlen := rfl
@[simp] theorem emitChunk_rval (k : Chunk) (s : State) : (emitChunk k s).rval = s.rval := rfl
@[simp] theorem emitChunk_phase (k : Chunk) (s : State) : (emitChunk k s).phase = s.phase := rfl
@[simp] theorem emitChunk_mode (k : Chunk) (s : State) : (emitChunk k s).mode = s.mode := rfl
@[simp] theorem emitChunk_rem (k : Chunk) (s : State) : (emitChunk k s).rem = k.rem := rfl
@[simp] theorem emitChunk_acc (k : Chunk) (s : State) : (emitChunk k s).acc = s.acc := rfl
@[simp] theorem emitChunk_idx (k : Chunk) (s : State) : (emitChunk k s).idx = s.idx + 1 := rfl
@[simp] theorem emitChunk_portBase (k : Chunk) (s : State) : (emitChunk k s).portBase = s.portBase := rfl
@[simp] theorem emitChunk_portCap (k : Chunk) (s : State) : (emitChunk k s).portCap = s.portCap := rfl
@[simp] theorem emitChunk_portLen (k : Chunk) (s : State) : (emitChunk k s).portLen = s.portLen := rfl
@[simp] theorem emitChunk_mem (k : Chunk) (s : State) :
    (emitChunk k s).mem = memWrite s.mem (s.portBase + s.idx.toNat) k.byte := rfl
@[simp] theorem emitChunk_unitOut (k : Chunk) (s : State) : (emitChunk k s).unitOut = s.unitOut := rfl
@[simp] theorem emitChunk_inputs (k : Chunk) (s : State) : (emitChunk k s).inputs = s.inputs := rfl
@[simp] theorem emitChunk_draws (k : Chunk) (s : State) : (emitChunk k s).draws = s.draws := rfl

end Sys2Proof.Machine
end

