-- ==== Sys2Proof/Laws/Ops.lean ====
section
/-! SUPPORT. For each shared operation, what it can do: when its guard lets it run, and what its next state is. -/

namespace Sys2Proof.Machine

/-! Guards -/

theorem guarded_eq_next {g : Option Refusal} {t u : State} :
    guarded g t = .next u ↔ g = none ∧ t = u := by
  cases g <;> simp [guarded]

theorem guarded_ne_fault {g : Option Refusal} {t : State} {f : Fault} : guarded g t ≠ .fault f := by
  cases g <;> simp [guarded]

theorem idleGuard_eq_none {s : State} : idleGuard s = none ↔ s.phase = .idle := by
  unfold idleGuard
  split <;> simp_all

/-- A command that reads the codec runs on an idle block that holds a codec of its variant. -/
theorem codecGuard_eq_none {v : Variant} {s : State} :
    codecGuard v s = none ↔ s.phase = .idle ∧ s.c.vld = true ∧ s.c.tag = v := by
  unfold codecGuard
  split
  · simp_all
  · split
    · simp_all
    · split <;> simp_all

/-- A `WRITE_INTO` runs when the codec is of its variant and its window lies in the address space. -/
theorem writeGuard_eq_none {v : Variant} {base cap : Nat} {s : State} :
    writeGuard v base cap s = none ↔
      s.phase = .idle ∧ s.c.vld = true ∧ s.c.tag = v ∧ base + cap ≤ 2 ^ s.aw := by
  unfold writeGuard
  cases h : codecGuard v s with
  | none => simp [codecGuard_eq_none.1 h, windowFits]
  | some r =>
    simp only [reduceCtorEq, false_iff, not_and]
    intro h1 h2 h3
    exact absurd (codecGuard_eq_none.2 ⟨h1, h2, h3⟩) (by simp [h])

/-- A `READ_FROM` runs on an idle block when its window lies in the address space. -/
theorem readGuard_eq_none {base len : Nat} {s : State} :
    readGuard base len s = none ↔ s.phase = .idle ∧ base + len ≤ 2 ^ s.aw := by
  unfold readGuard
  cases h : idleGuard s with
  | none => simp [idleGuard_eq_none.1 h, windowFits]
  | some r =>
    simp only [reduceCtorEq, false_iff, not_and]
    intro h1
    exact absurd (idleGuard_eq_none.2 h1) (by simp [h])

/-! What each shared meaning can do -/

/-- A construction that completes held the codec and nothing else. -/
theorem construct_next {v : Variant} {x : Word} {s t : State} (h : construct v x s = .next t) :
    s.phase = .idle ∧ t = returnOk (holdCodec v x s) := by
  obtain ⟨hg, rfl⟩ := guarded_eq_next.1 h
  exact ⟨idleGuard_eq_none.1 hg, rfl⟩

/-- An extraction that completes had a codec of its variant and delivered its value. -/
theorem extractValue_next {v : Variant} {s t : State} (h : extractValue v s = .next t) :
    s.phase = .idle ∧ s.c.vld = true ∧ s.c.tag = v ∧ t = returnOk { s with rval := s.c.val } := by
  obtain ⟨hg, rfl⟩ := guarded_eq_next.1 h
  obtain ⟨h1, h2, h3⟩ := codecGuard_eq_none.1 hg
  exact ⟨h1, h2, h3, rfl⟩

/-- A `WRITE_INTO` that completes either had no room, and lost its window, or wrote its bytes. -/
theorem writeInto_next {v : Variant} {base cap : Nat} {s t : State} (h : writeInto v base cap s = .next t) :
    s.phase = .idle ∧ s.c.vld = true ∧ s.c.tag = v ∧ base + cap ≤ 2 ^ s.aw ∧
    ((cap < (encodeBytes v s.c.val).length ∧
        t = raiseError .bufferTooSmall (scrambleWindow base cap (forgetEncoder v s))) ∨
     ((encodeBytes v s.c.val).length ≤ cap ∧
        t = returnLen (BitVec.ofNat 4 (encodeBytes v s.c.val).length)
          { forgetEncoder v s with mem := memWriteBytes s.mem base (encodeBytes v s.c.val) })) := by
  obtain ⟨hg, rfl⟩ := guarded_eq_next.1 h
  obtain ⟨h1, h2, h3, h4⟩ := writeGuard_eq_none.1 hg
  refine ⟨h1, h2, h3, h4, ?_⟩
  unfold writeEffect
  split
  · exact .inl ⟨‹_›, rfl⟩
  · exact .inr ⟨by omega, rfl⟩

/-- A `READ_FROM` that completes either constructed a codec or raised an error. -/
theorem readFrom_next {v : Variant} {base len : Nat} {s t : State} (h : readFrom v base len s = .next t) :
    s.phase = .idle ∧ base + len ≤ 2 ^ s.aw ∧
    ((∃ x n, decodeWindow v s.mem base len = .ok x n ∧
        t = returnLen (BitVec.ofNat 4 n) (holdCodec v x (forgetDecoder v s))) ∨
     (∃ e, decodeWindow v s.mem base len = .err e ∧ t = raiseError e (forgetDecoder v s))) := by
  obtain ⟨hg, rfl⟩ := guarded_eq_next.1 h
  obtain ⟨h1, h2⟩ := readGuard_eq_none.1 hg
  refine ⟨h1, h2, ?_⟩
  unfold readEffect
  cases hd : decodeWindow v s.mem base len with
  | ok x n => exact .inl ⟨x, n, rfl, rfl⟩
  | err e => exact .inr ⟨e, rfl, rfl⟩

/-- A byte that is executed is executed by a running decode. -/
theorem byteStep_next {b : Byte} {s t : State} (h : byteStep b s = .next t) :
    s.phase = .dec ∧ t = consumeByte b s := by
  unfold byteStep at h
  split at h
  · exact ⟨‹_›, by simpa using h.symm⟩
  · simp at h

/-- What the decoder micro-step does with a byte: one of the two ends without a byte, the range error, the next position, or
the end of the decode. -/
theorem consumeByte_cases (b : Byte) (s : State) :
    (s.portLen ≤ s.idx.toNat ∧ consumeByte b s = raiseError .unexpectedEndOfBuffer s) ∨
    (s.idx.toNat < s.portLen ∧ 10 ≤ s.idx.toNat ∧ consumeByte b s = raiseError .overflow s) ∨
    (s.idx.toNat < s.portLen ∧ s.idx.toNat < 10 ∧ outOfRange s.mode s.idx.toNat b = true ∧
      consumeByte b s = raiseError .overflow s) ∨
    (s.idx.toNat < s.portLen ∧ s.idx.toNat < 10 ∧ outOfRange s.mode s.idx.toNat b = false ∧
      contOf b = true ∧ consumeByte b s = takeByte b s) ∨
    (s.idx.toNat < s.portLen ∧ s.idx.toNat < 10 ∧ outOfRange s.mode s.idx.toNat b = false ∧
      contOf b = false ∧ consumeByte b s = finishDecode (payloadOf b) (takeByte b s)) := by
  unfold consumeByte positionOpen endOfWindow
  by_cases h1 : s.portLen ≤ s.idx.toNat
  · simp [h1, Nat.not_lt.2 h1]
  · by_cases h2 : s.idx.toNat < 10
    · cases h3 : outOfRange s.mode s.idx.toNat b <;> cases h4 : contOf b <;>
        simp [Nat.not_le.1 h1, h2, h1, Nat.not_le.2 h2]
    · simp [h1, h2, Nat.not_le.1 h1, Nat.not_lt.1 h2]

/-- What the encoder micro-step does: no room, the last byte, or one more byte. -/
theorem encTick_cases (s : State) :
    (s.portCap ≤ s.idx.toNat ∧ encTick s = raiseError .bufferTooSmall s) ∨
    (s.idx.toNat < s.portCap ∧ (chunk s.mode s.rem).last = true ∧
      encTick s = returnLen (s.idx + 1) (emitChunk (chunk s.mode s.rem) s)) ∨
    (s.idx.toNat < s.portCap ∧ (chunk s.mode s.rem).last = false ∧
      encTick s = emitChunk (chunk s.mode s.rem) s) := by
  unfold encTick
  by_cases h1 : s.portCap ≤ s.idx.toNat
  · simp [h1]
  · cases h2 : (chunk s.mode s.rem).last <;> simp [h1, Nat.not_le.1 h1]

/-- A micro-step always has a next state: an idle sequencer stays, a running one takes its micro-step. -/
theorem tick_eq (s : State) :
    (s.phase = .idle ∧ tick s = .next s) ∨ (s.phase = .enc ∧ tick s = .next (encTick s)) ∨
    (s.phase = .dec ∧ positionOpen s = true ∧ tick s = exec (decodeByte (fetchByte s)) s) ∨
    (s.phase = .dec ∧ positionOpen s = false ∧ tick s = .next (endOfWindow s)) := by
  unfold tick
  cases h : s.phase <;> cases hp : positionOpen s <;> simp

/-- An accepted `WRITE_INTO` starts the encoder. -/
theorem startEncoder_next {v : Variant} {base cap : Nat} {s t : State} (h : startEncoder v base cap s = .next t) :
    s.phase = .idle ∧ s.c.vld = true ∧ s.c.tag = v ∧ base + cap ≤ 2 ^ s.aw ∧
    t = { s with mode := v, rem := s.c.val, idx := 0, phase := .enc, portBase := base, portCap := cap } := by
  obtain ⟨hg, rfl⟩ := guarded_eq_next.1 h
  obtain ⟨h1, h2, h3, h4⟩ := writeGuard_eq_none.1 hg
  exact ⟨h1, h2, h3, h4, rfl⟩

/-- An accepted `READ_FROM` starts the decoder. -/
theorem startDecoder_next {v : Variant} {base len : Nat} {s t : State} (h : startDecoder v base len s = .next t) :
    s.phase = .idle ∧ base + len ≤ 2 ^ s.aw ∧
    t = { s with mode := v, acc := 0, idx := 0, phase := .dec, portBase := base, portLen := len } := by
  obtain ⟨hg, rfl⟩ := guarded_eq_next.1 h
  obtain ⟨h1, h2⟩ := readGuard_eq_none.1 hg
  exact ⟨h1, h2, rfl⟩

/-- A host write that completes wrote one byte of the address space, outside any running command's window. -/
theorem hostWrite_next {a : Nat} {b : Byte} {s t : State} (h : hostWrite a b s = .next t) :
    a < 2 ^ s.aw ∧ ownedForWrite s a = false ∧ t = { s with mem := memWrite s.mem a b } := by
  unfold hostWrite at h
  split at h
  · simp at h
  · split at h
    · simp at h
    · exact ⟨by omega, by simpa using ‹¬ownedForWrite s a = true›, by simpa using h.symm⟩

/-- A host read that completes changes nothing. -/
theorem hostRead_next {a : Nat} {s t : State} (h : hostRead a s = .next t) : a < 2 ^ s.aw ∧ t = s := by
  unfold hostRead at h
  split at h
  · simp at h
  · split at h
    · simp at h
    · exact ⟨by omega, by simpa using h.symm⟩

/-! The commands of a variant, as `exec` runs them -/

theorem exec_fromInstr (v : Variant) (x : Word) (s : State) : exec (fromInstr v x) s = construct v x s := by
  cases v <;> rfl

theorem exec_writeInstr (v : Variant) (base cap : Nat) (s : State) :
    exec (writeInstr v base cap) s = writeInto v base cap s := by
  cases v <;> rfl

theorem exec_readInstr (v : Variant) (base len : Nat) (s : State) :
    exec (readInstr v base len) s = readFrom v base len s := by
  cases v <;> rfl

theorem exec_valueInstr (v : Variant) (s : State) : exec (valueInstr v) s = extractValue v s := by
  cases v <;> rfl

end Sys2Proof.Machine
end

