-- ==== Sys2Proof/Laws/PerInstr.lean ====
section
/-! SUPPORT. Statements made per instruction. The family TableRow: the code of an instruction has, under its opcode-table row's mask,
the row's match. -/

namespace Sys2Proof.Laws.TableRow

/-- The bits of a code that the opcode table numbers. -/
def bits : Code → Nat
  | .cmd p => p.cmd.toNat
  | .micro u => u.uop.toNat
  | .byte b => b.toNat

/-- "mask" of the row, then "match" (spec/opcode_table.json). -/
def row : Instr → Nat × Nat
  | .uleb128From _ => (0x7, 0x0)
  | .sleb128From _ => (0x7, 0x1)
  | .uleb128WriteInto _ _ => (0x7, 0x2)
  | .sleb128WriteInto _ _ => (0x7, 0x3)
  | .uleb128ReadFrom _ _ => (0x7, 0x4)
  | .sleb128ReadFrom _ _ => (0x7, 0x5)
  | .uleb128Value => (0x7, 0x6)
  | .sleb128Value => (0x7, 0x7)
  | .chunkU _ => (0x3, 0x0)
  | .chunkS _ => (0x3, 0x1)
  | .accum _ _ _ => (0x3, 0x2)
  | .sext _ _ _ => (0x3, 0x3)
  | .byteContinuation _ => (0x80, 0x80)
  | .byteTerminator _ => (0x80, 0x00)

def Statement (i : Instr) : Prop := bits (encode i) &&& (row i).1 = (row i).2

theorem uleb128From (x : Word) : Statement (.uleb128From x) := by simp [Statement, bits, row, encode, cmdCode]
theorem sleb128From (x : Word) : Statement (.sleb128From x) := by simp [Statement, bits, row, encode, cmdCode]
theorem uleb128WriteInto (base cap : Nat) : Statement (.uleb128WriteInto base cap) := by simp [Statement, bits, row, encode, cmdCode]
theorem sleb128WriteInto (base cap : Nat) : Statement (.sleb128WriteInto base cap) := by simp [Statement, bits, row, encode, cmdCode]
theorem uleb128ReadFrom (base len : Nat) : Statement (.uleb128ReadFrom base len) := by simp [Statement, bits, row, encode, cmdCode]
theorem sleb128ReadFrom (base len : Nat) : Statement (.sleb128ReadFrom base len) := by simp [Statement, bits, row, encode, cmdCode]
theorem uleb128Value : Statement .uleb128Value := by simp [Statement, bits, row, encode, cmdCode]
theorem sleb128Value : Statement .sleb128Value := by simp [Statement, bits, row, encode, cmdCode]
theorem chunkU (rem : Word) : Statement (.chunkU rem) := by simp [Statement, bits, row, encode, microCode]
theorem chunkS (rem : Word) : Statement (.chunkS rem) := by simp [Statement, bits, row, encode, microCode]
theorem accum (acc : Word) (idx : Nat) (b : Byte) : Statement (.accum acc idx b) := by simp [Statement, bits, row, encode, microCode]
theorem sext (acc : Word) (n : Nat) (p : Group) : Statement (.sext acc n p) := by simp [Statement, bits, row, encode, microCode]
theorem byteContinuation (p : Group) : Statement (.byteContinuation p) := by
  revert p
  show ∀ p : Group, (mkByte true p).toNat &&& 0x80 = 0x80
  decide
theorem byteTerminator (p : Group) : Statement (.byteTerminator p) := by
  revert p
  show ∀ p : Group, (mkByte false p).toNat &&& 0x80 = 0x00
  decide

end Sys2Proof.Laws.TableRow
end

