-- ==== Sys2Proof/Tests/Slice0.lean ====
section
/-! SUPPORT. The model's own tests: ill-formed terms, codes written out from the spec's encodings, one-step tests whose expected
results are the vectors of spec/95_test_vectors.md (named in each comment), and a witness for the hypotheses of every
obligation that has some. -/

namespace Sys2Proof.Tests

open Sys2Proof.Machine

/-! ## Helpers -/

/-- An idle block that holds a codec. -/
def holding (v : Variant) (x : Word) : State := { State.reset with c := { vld := true, tag := v, val := x } }

/-- The state with bytes placed in memory. -/
def placed (s : State) (base : Nat) (bs : List Byte) : State := { s with mem := memWriteBytes s.mem base bs }

/-- A field of the next state. -/
def got {α : Type} (o : Host.Outcome State Fault Refusal) (f : State → α) : Option α :=
  match o with
  | .next t => some (f t)
  | .fault _ => none
  | .refused _ => none

/-- The refusal. -/
def refusalOf (o : Host.Outcome State Fault Refusal) : Option Refusal :=
  match o with
  | .next _ => none
  | .fault _ => none
  | .refused r => some r

/-- `n` times the same byte. -/
def times (n : Nat) (b : Byte) : List Byte := List.replicate n b

/-- A decode on the micro-sequencer at index `idx` of a window of `len` bytes at 0. -/
def decoding (v : Variant) (len : Nat) (idx : BitVec 4) (acc : Word) : State :=
  { State.reset with phase := .dec, mode := v, portLen := len, idx := idx, acc := acc }

/-- An encode on the micro-sequencer, just accepted, into a window of `cap` bytes at 0. -/
def encoding (v : Variant) (x : Word) (cap : Nat) : State :=
  { holding v x with phase := .enc, mode := v, rem := x, portCap := cap }

/-! ## Well-formedness: an ill-formed term for each check -/

theorem test_wf_accum_index : (Instr.accum 0 10 0).wf = false := by decide
theorem test_wf_sext_zero : (Instr.sext 0 0 0).wf = false := by decide
theorem test_wf_sext_eleven : (Instr.sext 0 11 0).wf = false := by decide
theorem test_wf_bounds : (Instr.accum 0 9 0).wf = true ∧ (Instr.sext 0 10 0).wf = true := by decide

/-! ## Decoding, every constructor from a code written out from R75, R77, R60 -/

theorem test_decode_uleb_from : decode (.cmd ⟨0b000, 300, 1, 2, 3⟩) = .ok (.uleb128From 300) := by rfl
theorem test_decode_sleb_from : decode (.cmd ⟨0b001, 300, 1, 2, 3⟩) = .ok (.sleb128From 300) := by rfl
theorem test_decode_uleb_write : decode (.cmd ⟨0b010, 300, 1, 2, 3⟩) = .ok (.uleb128WriteInto 1 2) := by rfl
theorem test_decode_sleb_write : decode (.cmd ⟨0b011, 300, 1, 2, 3⟩) = .ok (.sleb128WriteInto 1 2) := by rfl
theorem test_decode_uleb_read : decode (.cmd ⟨0b100, 300, 1, 2, 3⟩) = .ok (.uleb128ReadFrom 1 3) := by rfl
theorem test_decode_sleb_read : decode (.cmd ⟨0b101, 300, 1, 2, 3⟩) = .ok (.sleb128ReadFrom 1 3) := by rfl
theorem test_decode_uleb_value : decode (.cmd ⟨0b110, 300, 1, 2, 3⟩) = .ok .uleb128Value := by rfl
theorem test_decode_sleb_value : decode (.cmd ⟨0b111, 300, 1, 2, 3⟩) = .ok .sleb128Value := by rfl
theorem test_decode_chunk_u : decode (.micro ⟨0b00, 64, 15, 0xAC, 0x7D⟩) = .ok (.chunkU 64) := by rfl
theorem test_decode_chunk_s : decode (.micro ⟨0b01, 64, 15, 0xAC, 0x7D⟩) = .ok (.chunkS 64) := by rfl
theorem test_decode_accum : decode (.micro ⟨0b10, 64, 9, 0xAC, 0x7D⟩) = .ok (.accum 64 9 0xAC) := by rfl
theorem test_decode_sext : decode (.micro ⟨0b11, 64, 9, 0xAC, 0x7D⟩) = .ok (.sext 64 10 0x7D) := by rfl
theorem test_decode_index_rejected :
    decode (.micro ⟨0b10, 64, 10, 0xAC, 0x7D⟩) = .error (.indexOutOfRange 10) := by rfl
theorem test_decode_byte_continuation : decode (.byte 0b10101100) = .ok (.byteContinuation 0b0101100) := by rfl
theorem test_decode_byte_terminator : decode (.byte 0b01111101) = .ok (.byteTerminator 0b1111101) := by rfl

/-- The table's words: `CMD` 5, `UOP` 3, the bytes `0xAC` and `0x7D`. -/
theorem test_table_words :
    decodeTableWord 3 5 = some (.sleb128ReadFrom 0 0) ∧ decodeTableWord 2 3 = some (.sext 0 1 0) ∧
    decodeTableWord 8 0xAC = some (.byteContinuation 0x2C) ∧ decodeTableWord 8 0x7D = some (.byteTerminator 0x7D) ∧
    decodeTableWord 8 256 = none := by decide

/-- A placed command, unit and byte each run in the next step. -/
theorem test_withFetchWord_runs :
    got (step (State.reset.withFetchWord 3 1)) (fun t => t.c.tag) = some .sleb ∧
    got (step (State.reset.withFetchWord 2 1)) (fun t => t.unitOut.last) = some true ∧
    got (step (State.reset.withFetchWord 8 0xAC)) (fun t => t.acc) = some 0x2C ∧
    got (step (State.reset.withFetchWord 8 0x7D)) (fun t => t.c.val) = some 0x7D := by decide

/-- R78: `SLEB128.FROM -300` puts `0xFFFFFFFFFFFFFED4` on `OPERAND` (program P2). -/
theorem test_immediate : immOperand .sleb (-300) = some 0xFFFFFFFFFFFFFED4 ∧ immOperand .uleb (-1) = none := by decide

/-! ## FROM and VALUE -/

/-- FV1. -/
theorem test_uleb_from : got (exec (.uleb128From 0) State.reset) (fun t => (t.c, t.stat)) =
    some (⟨true, .uleb, 0⟩, 0) := by decide
/-- FV5: the second construction replaces the first. -/
theorem test_sleb_from_replaces : got (exec (.sleb128From 0xFFFFFFFFFFFFFFF9) (holding .uleb 7)) (fun t => t.c) =
    some ⟨true, .sleb, 0xFFFFFFFFFFFFFFF9⟩ := by decide
/-- FV8. -/
theorem test_uleb_value : got (exec .uleb128Value (holding .uleb 5)) (fun t => (t.rval, t.c.val)) = some (5, 5) := by decide
/-- FV6: refused after reset. -/
theorem test_uleb_value_empty : refusalOf (exec .uleb128Value State.reset) = some .noCodec := by decide
/-- FV4. -/
theorem test_sleb_value : got (exec .sleb128Value (holding .sleb 0x8000000000000000)) (fun t => t.rval) =
    some 0x8000000000000000 := by decide
/-- FV7 in the other variant: refused. -/
theorem test_sleb_value_wrong : refusalOf (exec .sleb128Value (holding .uleb 5)) = some .wrongVariant := by decide

/-! ## WRITE_INTO -/

/-- W5: 300 into five bytes of `0xEE`; the rest is unchanged. -/
theorem test_uleb_write : got (exec (.uleb128WriteInto 0x100 5) (placed (holding .uleb 300) 0x100 (times 6 0xEE)))
    (fun t => (t.stat, t.rlen, t.mem)) =
    some (0, 2, [(0x100, 0xAC), (0x101, 0x02), (0x102, 0xEE), (0x103, 0xEE), (0x104, 0xEE), (0x105, 0xEE)]) := by decide
/-- W1: an empty window always fails. -/
theorem test_uleb_write_empty : got (exec (.uleb128WriteInto 0 0) (holding .uleb 0)) (fun t => (t.stat, t.c.val)) =
    some (1, 0) := by decide
/-- S16 (and 90_conflicts.md C1): -300 is `[0xD4, 0x7D]`. -/
theorem test_sleb_write : got (exec (.sleb128WriteInto 0x200 2) (holding .sleb 0xFFFFFFFFFFFFFED4))
    (fun t => (t.stat, t.rlen, t.mem)) = some (0, 2, [(0x200, 0xD4), (0x201, 0x7D)]) := by decide
/-- W9: `i64::MIN` in exactly ten bytes. -/
theorem test_sleb_write_min : got (exec (.sleb128WriteInto 0 10) (holding .sleb 0x8000000000000000))
    (fun t => (t.rlen, memBytes t.mem 0 10)) = some (10, times 9 0x80 ++ [0x7F]) := by decide

/-! ## READ_FROM -/

/-- D10A: `u64::MAX`. -/
theorem test_uleb_read_max : got (exec (.uleb128ReadFrom 0 10) (placed State.reset 0 (times 9 0xFF ++ [0x01])))
    (fun t => (t.c, t.rlen, t.stat)) = some (⟨true, .uleb, 0xFFFFFFFFFFFFFFFF⟩, 10, 0) := by decide
/-- DE4, DE6: ten continuation bytes are truncated, eleven overlong. -/
theorem test_uleb_read_ten_eleven :
    got (exec (.uleb128ReadFrom 0 10) (placed State.reset 0 (times 11 0x80))) (fun t => t.stat) = some 2 ∧
    got (exec (.uleb128ReadFrom 0 11) (placed State.reset 0 (times 11 0x80))) (fun t => t.stat) = some 3 := by decide
/-- DS7: `[0xD4, 0x7D]` is -300; a trailing byte is not read. -/
theorem test_sleb_read : got (exec (.sleb128ReadFrom 5 3) (placed State.reset 5 [0xD4, 0x7D, 0xFF]))
    (fun t => (t.c, t.rlen)) = some (⟨true, .sleb, 0xFFFFFFFFFFFFFED4⟩, 2) := by decide
/-- D10D and D10A: the signed tenth byte `0x7F` is in range, `0x01` is not. -/
theorem test_sleb_read_tenth :
    got (exec (.sleb128ReadFrom 0 10) (placed State.reset 0 (times 9 0x80 ++ [0x7F]))) (fun t => t.c.val) =
      some 0x8000000000000000 ∧
    got (exec (.sleb128ReadFrom 0 10) (placed State.reset 0 (times 9 0xFF ++ [0x01]))) (fun t => (t.stat, t.c.vld)) =
      some (3, false) := by decide

/-! ## Micro-operations -/

/-- CU11. -/
theorem test_chunk_u : got (exec (.chunkU 0xFFFFFFFFFFFFFFFF) State.reset)
    (fun t => (t.unitOut.group, t.unitOut.rem, t.unitOut.last, t.unitOut.byte)) =
    some (0x7F, 0x01FFFFFFFFFFFFFF, false, 0xFF) := by decide
/-- CS4: 64 goes on although `rem' = 0`. -/
theorem test_chunk_s_64 : got (exec (.chunkS 64) State.reset)
    (fun t => (t.unitOut.rem, t.unitOut.last, t.unitOut.byte)) = some (0, false, 0xC0) := by decide
/-- CS10: the second step of -300. -/
theorem test_chunk_s_minus3 : got (exec (.chunkS 0xFFFFFFFFFFFFFFFD) State.reset)
    (fun t => (t.unitOut.rem, t.unitOut.last, t.unitOut.byte)) = some (0xFFFFFFFFFFFFFFFF, true, 0x7D) := by decide
/-- AC7: index 9 keeps payload bit 0 only. -/
theorem test_accum_nine : got (exec (.accum 0x7FFFFFFFFFFFFFFF 9 0x7F) State.reset) (fun t => t.unitOut.acc) =
    some 0xFFFFFFFFFFFFFFFF := by decide
/-- AC2. -/
theorem test_accum_one : got (exec (.accum 0x2C 1 0x02) State.reset) (fun t => t.unitOut.acc) = some 300 := by decide
/-- SX8: nine bytes extend bit 63 alone. -/
theorem test_sext_nine : got (exec (.sext 0x4000000000000000 9 0x40) State.reset) (fun t => t.unitOut.acc) =
    some 0xC000000000000000 := by decide
/-- SX1. -/
theorem test_sext_two : got (exec (.sext 0x3ED4 2 0x7D) State.reset) (fun t => t.unitOut.acc) =
    some 0xFFFFFFFFFFFFFED4 := by decide

/-! ## Bytes and the micro-sequencer -/

/-- Program P1, command 4: the first micro-step. -/
theorem test_byte_continuation : got (exec (.byteContinuation 0x2C) (decoding .uleb 4 0 0))
    (fun t => (t.acc, t.idx, t.phase)) = some (0x2C, 1, .dec) := by decide
/-- Program P1, command 4: the second micro-step ends the decode. -/
theorem test_byte_terminator : got (exec (.byteTerminator 0x02) (decoding .uleb 4 1 0x2C))
    (fun t => (t.c, t.rlen, t.phase)) = some (⟨true, .uleb, 300⟩, 2, .idle) := by decide
/-- Program P1, command 2: the first micro-step of the encode. -/
theorem test_encoder_micro_step : got (tick (encoding .uleb 0x12C 4)) (fun t => (t.mem, t.rem, t.idx)) =
    some ([(0, 0xAC)], 2, 1) := by decide

/-! ## Witnesses: for each obligation with hypotheses, inputs that meet them together -/

theorem wit_StepRunsDecodedInstruction :
    (∃ i, decode (.cmd ⟨4, 0, 0, 0, 0⟩) = .ok i) ∧ (∃ i, decode (.micro ⟨2, 0, 9, 0, 0⟩) = .ok i) ∧
    (∃ s : State, ∃ i, s.inputs = [.tick] ∧ s.phase = .dec ∧ s.idx.toNat < s.portLen ∧ s.idx.toNat < 10 ∧
      decode (.byte (memRead s.mem (s.portBase + s.idx.toNat))) = .ok i) :=
  ⟨⟨_, rfl⟩, ⟨_, rfl⟩,
    { placed (decoding .uleb 10 9 0) 9 [0x01] with inputs := [.tick] }, _, rfl, rfl, by decide, by decide, rfl⟩

theorem wit_StepWithoutMoveIsIdle : State.reset.inputs = [] := rfl

theorem wit_AcceptanceLoadsSequencer :
    (∃ (s : State) (p : CmdPorts), s.inputs = [.accept p] ∧ decodeCmd p = writeInstr .sleb 3 0 ∧
      s.phase = .idle ∧ s.c.vld = true ∧ s.c.tag = .sleb ∧ 3 + 0 ≤ 2 ^ s.aw) ∧
    (∃ (s : State) (p : CmdPorts), s.inputs = [.accept p] ∧ decodeCmd p = readInstr .uleb 3 10 ∧
      s.phase = .idle ∧ 3 + 10 ≤ 2 ^ s.aw) :=
  ⟨⟨{ holding .sleb 5 with inputs := [.accept ⟨3, 0, 3, 0, 0⟩] }, ⟨3, 0, 3, 0, 0⟩, by decide⟩,
   ⟨{ State.reset with inputs := [.accept ⟨4, 0, 3, 0, 10⟩] }, ⟨4, 0, 3, 0, 10⟩, by decide⟩⟩

theorem wit_EncoderMicroStep :
    (∃ s : State, s.inputs = [.tick] ∧ s.phase = .enc ∧ s.portCap ≤ s.idx.toNat) ∧
    (∃ s : State, s.inputs = [.tick] ∧ s.phase = .enc ∧ s.idx.toNat < s.portCap ∧ s.idx.toNat ≤ 9) :=
  ⟨⟨{ encoding .uleb 300 0 with inputs := [.tick] }, by decide⟩,
   ⟨{ encoding .uleb 300 10 with inputs := [.tick], idx := 9 }, by decide⟩⟩

theorem wit_DecodeEndsWithoutFetch :
    (∃ s : State, s.inputs = [.tick] ∧ s.phase = .dec ∧ s.portLen ≤ s.idx.toNat) ∧
    (∃ s : State, s.inputs = [.tick] ∧ s.phase = .dec ∧ s.idx.toNat < s.portLen ∧ s.idx.toNat = 10) :=
  ⟨⟨{ decoding .uleb 10 10 0 with inputs := [.tick] }, by decide⟩,
   ⟨{ decoding .uleb 11 10 0 with inputs := [.tick] }, by decide⟩⟩

theorem wit_DecodeOfEncode : (Instr.accum 1 9 2).wf = true ∧ (Instr.sext 1 10 2).wf = true := by decide

theorem wit_EncodeOfDecode : ∃ i, decode (.micro ⟨3, 5, 9, 7, 1⟩) = .ok i := ⟨_, rfl⟩

theorem wit_EveryCommandAndByteDecodes : 128 ≤ (0x80 : Byte).toNat ∧ (0x7F : Byte).toNat < 128 := by decide

theorem wit_ImmediateOnOperand :
    ((0 : Int) ≤ 18446744073709551615 ∧ ¬(0 ≤ (18446744073709551616 : Int) ∧
      (18446744073709551616 : Int) ≤ 18446744073709551615)) ∧
    ((-9223372036854775808 : Int) ≤ -9223372036854775808 ∧
      ¬(-9223372036854775808 ≤ (9223372036854775808 : Int) ∧ (9223372036854775808 : Int) ≤ 9223372036854775807)) := by
  decide

theorem wit_UlebFromHoldsOperand : State.reset.phase = .idle := rfl

theorem wit_SlebFromHoldsOperand : (holding .uleb 7).phase = .idle := rfl

theorem wit_UlebValueDelivers :
    ((holding .uleb 5).phase = .idle ∧ (holding .uleb 5).c.vld = true ∧ (holding .uleb 5).c.tag = .uleb) ∧
    ∃ t, exec (.uleb128From 9) State.reset = .next t := ⟨by decide, _, rfl⟩

theorem wit_SlebValueDelivers :
    ((holding .sleb 5).phase = .idle ∧ (holding .sleb 5).c.vld = true ∧ (holding .sleb 5).c.tag = .sleb) ∧
    ∃ t, exec (.sleb128From 9) State.reset = .next t := ⟨by decide, _, rfl⟩

theorem wit_FromThenValueLossless : State.reset.phase = .idle := rfl

theorem wit_WithoutCodecRefused :
    (State.reset.phase = .idle ∧ State.reset.c.vld = false) ∧
    ((holding .uleb 5).phase = .idle ∧ (holding .uleb 5).c.vld = true ∧ (holding .uleb 5).c.tag ≠ .sleb) := by decide

theorem wit_WrappingWindowRefused : 2 ^ State.reset.aw < 2 ^ 64 + 1 := by decide

theorem wit_CommandWhileRunningRefused : (encoding .uleb 300 4).phase ≠ .idle := by decide

theorem wit_UnitRangeAndStrayByteRefused : 9 < 10 ∧ 10 < 11 ∧ (encoding .uleb 300 4).phase ≠ .dec := by decide

theorem wit_ChunkUnsignedOutputs :
    ∃ (s : State) (x : Nat → Word), ∀ k, ∃ t, exec (.chunkU (x k)) s = .next t ∧ t.unitOut.rem = x (k + 1) :=
  ⟨State.reset, fun _ => 0, fun _ => ⟨_, rfl, by show lsr7 0 = 0; decide⟩⟩

theorem wit_ChunkVariantsPart :
    (∃ t u, exec (.chunkU 64) State.reset = .next t ∧ exec (.chunkS 64) State.reset = .next u) ∧
    (64 : Word).getLsbD 63 = false ∧ 64 ≤ (127 : Word).toNat ∧ (127 : Word).toNat ≤ 127 :=
  ⟨⟨_, _, rfl, rfl⟩, by decide⟩

theorem wit_AccumulateOutput : (9 : Nat) ≤ 9 ∧ (0x7FFFFFFFFFFFFFFF : Word).toNat < 2 ^ (7 * 9) := by decide

theorem wit_SignExtendOutput : (1 : Nat) ≤ 10 ∧ (10 : Nat) ≤ 10 := by decide

theorem wit_ContinuationByteAccumulates :
    (decoding .uleb 10 9 0).phase = .dec ∧ (decoding .uleb 10 9 0).idx.toNat < (decoding .uleb 10 9 0).portLen ∧
    (decoding .uleb 10 9 0).idx.toNat ≤ 9 := by decide

theorem wit_TerminatorByteEndsDecode :
    (∃ s : State, s.phase = .dec ∧ s.idx.toNat < s.portLen ∧ s.idx.toNat = 9 ∧ s.mode = .uleb ∧ (1 : Group).toNat ≤ 1) ∧
    (∃ s : State, s.phase = .dec ∧ s.idx.toNat < s.portLen ∧ s.idx.toNat = 9 ∧ s.mode = .sleb ∧
      (0x7F : Group).toNat = 127) :=
  ⟨⟨decoding .uleb 10 9 0, by decide⟩, ⟨decoding .sleb 10 9 0, by decide⟩⟩

theorem wit_TenthTerminatorOverflows :
    (∃ s : State, s.phase = .dec ∧ s.idx.toNat = 9 ∧ 9 < s.portLen ∧ s.mode = .uleb ∧ 2 ≤ (2 : Group).toNat) ∧
    (∃ s : State, s.phase = .dec ∧ s.idx.toNat = 9 ∧ 9 < s.portLen ∧ s.mode = .sleb ∧ (1 : Group).toNat ≠ 0 ∧
      (1 : Group).toNat ≠ 127) :=
  ⟨⟨decoding .uleb 10 9 0, by decide⟩, ⟨decoding .sleb 10 9 0, by decide⟩⟩

theorem wit_LengthsAreLeast : (0xFFFFFFFFFFFFFFFF : Word).toNat < 2 ^ (7 * 10) ∧
    -2 ^ (7 * 1 - 1) ≤ (0xFFFFFFFFFFFFFFC0 : Word).toInt ∧ (0xFFFFFFFFFFFFFFC0 : Word).toInt < 2 ^ (7 * 1 - 1) := by
  decide

theorem wit_UlebWriteCanonical :
    (holding .uleb 0xFFFFFFFFFFFFFFFF).phase = .idle ∧ (holding .uleb 0xFFFFFFFFFFFFFFFF).c.vld = true ∧
    (holding .uleb 0xFFFFFFFFFFFFFFFF).c.tag = .uleb ∧
    (2 ^ 64 - 10) + 10 ≤ 2 ^ (holding .uleb 0xFFFFFFFFFFFFFFFF).aw ∧
    ulen (holding .uleb 0xFFFFFFFFFFFFFFFF).c.val ≤ 10 := by decide

theorem wit_SlebWriteCanonical :
    (holding .sleb 0x8000000000000000).phase = .idle ∧ (holding .sleb 0x8000000000000000).c.vld = true ∧
    (holding .sleb 0x8000000000000000).c.tag = .sleb ∧
    (2 ^ 64 - 10) + 10 ≤ 2 ^ (holding .sleb 0x8000000000000000).aw ∧
    slen (holding .sleb 0x8000000000000000).c.val ≤ 10 := by decide

theorem wit_WrittenBitsLittleEndian :
    ∃ t, exec (writeInstr .sleb 7 10) (holding .sleb 0x8000000000000000) = .next t ∧ t.stat = 0 ∧ 9 < t.rlen.toNat :=
  ⟨_, rfl, by decide, by decide⟩

theorem wit_WriteTooSmall :
    (holding .sleb 64).phase = .idle ∧ (holding .sleb 64).c.vld = true ∧ (holding .sleb 64).c.tag = .sleb ∧
    0 + 1 ≤ 2 ^ (holding .sleb 64).aw ∧ 1 < encLen .sleb (holding .sleb 64).c.val := by decide

theorem wit_RetryAfterTooSmall :
    ∃ t, exec (writeInstr .uleb 0 1) (holding .uleb 300) = .next t ∧ t.stat = 1 ∧
      0 + 2 ≤ 2 ^ (holding .uleb 300).aw ∧ encLen .uleb (holding .uleb 300).c.val ≤ 2 :=
  ⟨_, rfl, by decide, by decide, by decide⟩

theorem wit_UlebReadDecodes :
    ∃ s : State, s.phase = .idle ∧ 0 + 11 ≤ 2 ^ s.aw ∧ isSequence (memBytes s.mem 0 10) = true ∧
      (memRead s.mem (0 + 9)).toNat ≤ 1 :=
  ⟨placed State.reset 0 (times 9 0xFF ++ [0x01, 0xFF]), by decide⟩

theorem wit_SlebReadDecodes :
    ∃ s : State, s.phase = .idle ∧ 0 + 10 ≤ 2 ^ s.aw ∧ isSequence (memBytes s.mem 0 10) = true ∧
      memRead s.mem (0 + 9) = 0x7F#8 :=
  ⟨placed State.reset 0 (times 9 0x80 ++ [0x7F]), by decide⟩

/-- Clause truncated, at `LEN` 10 and 0. -/
theorem wit_ReadErrorsClassified_truncated :
    ∃ s : State, s.phase = .idle ∧ 0 + 10 ≤ 2 ^ s.aw ∧ (∀ k, k < 10 → 128 ≤ (memRead s.mem (0 + k)).toNat) ∧
      (∀ k, k < 0 → 128 ≤ (memRead s.mem (0 + k)).toNat) :=
  ⟨placed State.reset 0 (times 10 0x80), by decide⟩

/-- Clause overlong, at `LEN` 11. -/
theorem wit_ReadErrorsClassified_overlong :
    ∃ s : State, s.phase = .idle ∧ 0 + 11 ≤ 2 ^ s.aw ∧ (∀ k, k < 10 → 128 ≤ (memRead s.mem (0 + k)).toNat) :=
  ⟨placed State.reset 0 (times 11 0xFF), by decide⟩

/-- Clause out of range, at the payload `0x02` for both variants. -/
theorem wit_ReadErrorsClassified_outOfRange :
    ∃ s : State, s.phase = .idle ∧ 0 + 10 ≤ 2 ^ s.aw ∧ (∀ k, k < 9 → 128 ≤ (memRead s.mem (0 + k)).toNat) ∧
      (memRead s.mem (0 + 9)).toNat < 128 ∧ 2 ≤ (memRead s.mem (0 + 9)).toNat ∧ (memRead s.mem (0 + 9)).toNat ≠ 127 :=
  ⟨placed State.reset 0 (times 9 0x80 ++ [0x02]), by decide⟩

theorem wit_ReadDependsOnSliceOnly :
    ∃ (s t : State) (m : Memory), exec (readInstr .uleb 0 4) s = .next t ∧ t.stat = 0 ∧
      (∀ k, k < t.rlen.toNat → memRead m (0 + k) = memRead s.mem (0 + k)) ∧ m ≠ s.mem :=
  ⟨placed State.reset 0 [0xAC, 0x02, 0xFF], _, [(0, 0xAC), (1, 0x02)], rfl, by decide, by decide, by decide⟩

theorem wit_ErrorsTellExtendable :
    (∃ t, exec (readInstr .uleb 0 1) (placed State.reset 0 [0xAC]) = .next t ∧ t.stat = 2 ∧ 0 + 10 ≤ 2 ^ State.reset.aw) ∧
    (∃ t, exec (readInstr .uleb 0 11) (placed State.reset 0 (times 11 0x80)) = .next t ∧ t.stat = 3) :=
  ⟨⟨_, rfl, by decide, by decide⟩, ⟨_, rfl, by decide⟩⟩

/-- DU8 read as signed: `[0x7F]` is -1 and so is `[0xFF, 0x7F]`. -/
theorem wit_NonCanonicalAccepted :
    ∃ (s t : State) (m : Memory), exec (readInstr .sleb 0 1) s = .next t ∧ t.stat = 0 ∧ t.rlen.toNat = 1 ∧
      0 + 2 ≤ 2 ^ s.aw ∧ memRead m (0 + (1 - 1)) = memRead s.mem (0 + (1 - 1)) ||| 0x80#8 ∧
      memRead m (0 + 1) =
        (if Variant.sleb = .sleb ∧ (memRead s.mem (0 + (1 - 1))).getLsbD 6 = true then 0x7F#8 else 0x00#8) :=
  ⟨placed State.reset 0 [0x7F], _, [(0, 0xFF), (1, 0x7F)], rfl, by decide, by decide, by decide, by decide, by decide⟩

theorem wit_CanonicalIsUniqueShortest :
    (∃ t, exec (readInstr .uleb 0 2) (placed State.reset 0 [0xAC, 0x02]) = .next t ∧ t.stat = 0 ∧
      t.rlen.toNat = encLen .uleb t.c.val) ∧ canonical .sleb 64 = canonical .sleb 64 :=
  ⟨⟨_, rfl, by decide, by decide⟩, rfl⟩

theorem wit_UlebRoundTrip :
    State.reset.phase = .idle ∧ ulen 0xFFFFFFFFFFFFFFFF ≤ 10 ∧ 0 + 10 ≤ 2 ^ State.reset.aw ∧
    ulen 0xFFFFFFFFFFFFFFFF ≤ 10 ∧ 9 < ulen 0xFFFFFFFFFFFFFFFF := by decide

theorem wit_SlebRoundTrip :
    State.reset.phase = .idle ∧ slen 0xFFFFFFFFFFFFFED4 ≤ 2 ∧ 0 + 2 ≤ 2 ^ State.reset.aw ∧
    slen 0xFFFFFFFFFFFFFED4 ≤ 2 ∧ 1 < slen 0xFFFFFFFFFFFFFED4 := by decide

/-- X1 (64), X3 (-1) and X4 (`i64::MIN`), one for each clause. -/
theorem wit_SignedBytesReadUnsigned :
    (∃ s : State, s.phase = .idle ∧ 0 + 2 ≤ 2 ^ s.aw ∧ slen 64 ≤ 2 ∧ memBytes s.mem 0 (slen 64) = canonical .sleb 64 ∧
      0 ≤ (64 : Word).toInt) ∧
    (∃ s : State, s.phase = .idle ∧ memBytes s.mem 0 (slen 0xFFFFFFFFFFFFFFFF) = canonical .sleb 0xFFFFFFFFFFFFFFFF ∧
      (0xFFFFFFFFFFFFFFFF : Word).toInt < 0 ∧ slen 0xFFFFFFFFFFFFFFFF ≤ 9) ∧
    (∃ s : State, s.phase = .idle ∧ memBytes s.mem 0 (slen 0x8000000000000000) = canonical .sleb 0x8000000000000000 ∧
      (0x8000000000000000 : Word).toInt < 0 ∧ slen 0x8000000000000000 = 10) :=
  ⟨⟨placed State.reset 0 [0xC0, 0x00], by decide⟩, ⟨placed State.reset 0 [0x7F], by decide⟩,
   ⟨placed State.reset 0 (times 9 0x80 ++ [0x7F]), by decide⟩⟩

/-- X6 (300), X2 (64) and X5 (`u64::MAX`), one for each clause. -/
theorem wit_UnsignedBytesReadSigned :
    (∃ s : State, s.phase = .idle ∧ 0 + 2 ≤ 2 ^ s.aw ∧ ulen 300 ≤ 2 ∧ memBytes s.mem 0 (ulen 300) = canonical .uleb 300 ∧
      0 ≤ (300 : Word).toInt ∧ slen 300 = ulen 300) ∧
    (∃ s : State, s.phase = .idle ∧ memBytes s.mem 0 (ulen 64) = canonical .uleb 64 ∧ ulen 64 ≤ 9 ∧
      ¬(0 ≤ (64 : Word).toInt ∧ slen 64 = ulen 64)) ∧
    (∃ s : State, s.phase = .idle ∧ memBytes s.mem 0 (ulen 0xFFFFFFFFFFFFFFFF) = canonical .uleb 0xFFFFFFFFFFFFFFFF ∧
      ulen 0xFFFFFFFFFFFFFFFF = 10) :=
  ⟨⟨placed State.reset 0 [0xAC, 0x02], by decide⟩, ⟨placed State.reset 0 [0x40], by decide⟩,
   ⟨placed State.reset 0 (times 9 0xFF ++ [0x01]), by decide⟩⟩

theorem wit_EncoderRefines :
    (∃ t, exec (writeInstr .uleb 0 1) (holding .uleb 300) = .next t ∧ t.stat = 1) ∧
    (∃ t, exec (writeInstr .sleb 0 10) (holding .sleb 0x8000000000000000) = .next t ∧ t.stat = 0) :=
  ⟨⟨_, rfl, by decide⟩, ⟨_, rfl, by decide⟩⟩

theorem wit_DecoderRefines :
    (∃ t, exec (readInstr .uleb 0 11) (placed State.reset 0 (times 11 0x80)) = .next t ∧ t.stat = 3) ∧
    (∃ t, exec (readInstr .sleb 0 1) (placed State.reset 0 [0x40]) = .next t ∧ t.stat = 0) :=
  ⟨⟨_, rfl, by decide⟩, ⟨_, rfl, by decide⟩⟩

/-- A running decode that meets the invariant, two bytes in, and takes a step. -/
theorem wit_StepKeepsInvariant :
    ∃ s t : State, Inv s ∧ s.phase = .dec ∧ s.idx.toNat = 2 ∧ step s = .next t :=
  ⟨{ placed (decoding .uleb 3 2 0x765) 0 [0xE5, 0x8E, 0x26] with inputs := [.tick] }, _,
    ⟨by decide, by unfold memInSpace; decide, fun h => absurd h (by decide), fun _ => ⟨by decide, by decide, by decide, by decide,
      by decide, by decide⟩⟩, rfl, by decide, rfl⟩

/-- A running encode that meets the invariant, one byte in, and takes a step. -/
theorem wit_StepKeepsInvariant_encode :
    ∃ s t : State, Inv s ∧ s.phase = .enc ∧ s.idx.toNat = 1 ∧ step s = .next t :=
  ⟨{ placed (encoding .uleb 300 4) 0 [0xAC] with inputs := [.tick], idx := 1, rem := 2 }, _,
    ⟨by decide, by unfold memInSpace; decide, fun _ => ⟨by decide, by decide, by decide, by decide, by decide, by decide,
      by decide⟩, fun h => absurd h (by decide)⟩, rfl, by decide, rfl⟩

theorem wit_EqualReadsEqualMemory : ∃ m : Memory, m.wf ∧ m ≠ [] := ⟨[(1, 2), (5, 6)], by decide⟩

theorem wit_OnlyConstructionWritesCodec :
    ∃ s t : State, step s = .next t ∧ t.c ≠ s.c :=
  ⟨{ placed (decoding .uleb 2 1 0x2C) 1 [0x02] with inputs := [.tick] }, _, rfl, by decide⟩

theorem wit_OnlyWriteIntoWritesMemory :
    ∃ (i : Instr) (s t : State) (a : Nat), exec i s = .next t ∧ memRead t.mem a ≠ memRead s.mem a :=
  ⟨.uleb128WriteInto 0 2, holding .uleb 300, _, 1, rfl, by decide⟩

theorem wit_OnlyReadFromReadsMemory :
    ∃ (i : Instr) (s t : State), exec i s = .next t ∧ ∀ v base len, i ≠ readInstr v base len :=
  ⟨.uleb128WriteInto 0 2, holding .uleb 300, _, rfl, fun v _ _ => by cases v <;> simp [readInstr]⟩

theorem wit_StatusOfEachCommand :
    (∃ t, exec (fromInstr .uleb 1) State.reset = .next t) ∧ (∃ t, exec (valueInstr .sleb) (holding .sleb 1) = .next t) ∧
    (∃ t, exec (writeInstr .uleb 0 0) (holding .uleb 1) = .next t) ∧ (∃ t, exec (readInstr .uleb 0 0) State.reset = .next t) :=
  ⟨⟨_, rfl⟩, ⟨_, rfl⟩, ⟨_, rfl⟩, ⟨_, rfl⟩⟩

theorem wit_ReturnedLengthInRange :
    (∃ t, exec (writeInstr .sleb 0 10) (holding .sleb 0x8000000000000000) = .next t ∧ t.stat = 0) ∧
    (∃ t, exec (readInstr .sleb 0 1) (placed State.reset 0 [0x40]) = .next t ∧ t.stat = 0) :=
  ⟨⟨_, rfl, by decide⟩, ⟨_, rfl, by decide⟩⟩

theorem wit_StepKeepsAddressWidth :
    ∃ s t : State, s.inputs ≠ [] ∧ step s = .next t := ⟨{ State.reset with inputs := [.hostWrite 1 2] }, _, by decide, rfl⟩

/-- A reset of an idle block, and one that cuts a `WRITE_INTO`. -/
theorem wit_ResetMove :
    (∃ s : State, s.inputs = [.reset] ∧ s.phase ≠ .enc) ∧ (∃ s : State, s.inputs = [.reset] ∧ s.phase = .enc) :=
  ⟨⟨{ State.reset with inputs := [.reset] }, by decide⟩, ⟨{ encoding .uleb 300 4 with inputs := [.reset] }, by decide⟩⟩

theorem wit_HostKeepsOffWindow :
    (∃ s : State, s.inputs = [.hostWrite 5 6] ∧ s.phase = .idle ∧ 5 < 2 ^ s.aw) ∧
    (∃ s : State, s.inputs = [.hostWrite 3 6] ∧ 3 < 2 ^ s.aw ∧ s.portBase ≤ 3 ∧ s.phase = .enc ∧
      3 < s.portBase + s.portCap) ∧
    (∃ s : State, s.inputs = [.hostWrite 3 6] ∧ 3 < 2 ^ s.aw ∧ s.portBase ≤ 3 ∧ s.phase = .dec ∧
      3 < s.portBase + s.portLen) ∧
    (∃ s : State, s.inputs = [.hostRead 3] ∧ 3 < 2 ^ s.aw ∧ s.portBase ≤ 3 ∧ s.phase = .enc ∧
      3 < s.portBase + s.portCap) ∧
    (∃ s : State, s.inputs = [.hostWrite (2 ^ 64) 0] ∧ 2 ^ s.aw ≤ 2 ^ 64) :=
  ⟨⟨{ State.reset with inputs := [.hostWrite 5 6] }, by decide⟩,
   ⟨{ encoding .uleb 300 4 with inputs := [.hostWrite 3 6] }, by decide⟩,
   ⟨{ decoding .uleb 4 0 0 with inputs := [.hostWrite 3 6] }, by decide⟩,
   ⟨{ encoding .uleb 300 4 with inputs := [.hostRead 3] }, by decide⟩,
   ⟨{ State.reset with inputs := [.hostWrite (2 ^ 64) 0] }, by decide⟩⟩

end Sys2Proof.Tests
end

section
/-! SUPPORT. Family 00_scope: what a step runs, that a running command keeps every other command out, and that no step changes
the address width or takes more than the one move. -/

namespace Sys2Proof.Machine

/-! ## What a step runs -/

/-- A step is its first pending move, on the state with that move taken off. -/
theorem step_of_inputs_cons {s : State} {x : Input} {rest : List Input} (h : s.inputs = x :: rest) :
    step s = runInput x { s with inputs := rest } := by
  rw [step, h]

/-- A function unit whose inputs decode runs the instruction they decode to. -/
theorem runUnit_of_decodeUnit {u : UnitPorts} {i : Instr} (h : decodeUnit u = .ok i) (s : State) :
    runUnit u s = exec i s := by
  rw [runUnit, h]

theorem positionOpen_iff {s : State} :
    positionOpen s = true ↔ s.idx.toNat < s.portLen ∧ s.idx.toNat < 10 := by
  simp [positionOpen]

/-- A decode at a position it fetches from runs the byte form it fetches (R93). -/
theorem tick_of_positionOpen {s : State} (hphase : s.phase = .dec) (hopen : positionOpen s = true) :
    tick s = exec (decodeByte (fetchByte s)) s := by
  simp only [tick, hphase, hopen, if_true]

/-- Settles O1: the three routes of a code, each through the decoder of its format. -/
theorem stepRunsDecodedInstruction : Obligations.StepRunsDecodedInstruction := by
  refine ⟨fun s p rest i hin hdec => ?_, fun s u rest i hin hdec => ?_,
    fun s rest i hin hphase hlen hten hdec => ?_⟩
  · obtain rfl : decodeCmd p = i := Except.ok.inj hdec
    exact step_of_inputs_cons hin
  · exact (step_of_inputs_cons hin).trans (runUnit_of_decodeUnit hdec _)
  · obtain rfl : decodeByte (fetchByte s) = i := Except.ok.inj hdec
    exact (step_of_inputs_cons hin).trans (tick_of_positionOpen hphase (positionOpen_iff.2 ⟨hlen, hten⟩))

/-! ## A running command keeps every other command out -/

theorem idleGuard_of_running {s : State} (h : s.phase ≠ .idle) : idleGuard s = some .busy := if_neg h

theorem codecGuard_of_running (v : Variant) {s : State} (h : s.phase ≠ .idle) :
    codecGuard v s = some .busy := if_pos h

theorem writeGuard_of_running (v : Variant) (base cap : Nat) {s : State} (h : s.phase ≠ .idle) :
    writeGuard v base cap s = some .busy := by
  rw [writeGuard, codecGuard_of_running v h]

theorem readGuard_of_running (base len : Nat) {s : State} (h : s.phase ≠ .idle) :
    readGuard base len s = some .busy := by
  rw [readGuard, idleGuard_of_running h]

/-- A guard that names a reason refuses the command, whatever its effect would be. -/
theorem guarded_of_eq_some {g : Option Refusal} {r : Refusal} (h : g = some r) (t : State) :
    guarded g t = .refused r := by
  subst h
  rfl

/-- Settles O18: the phase is the first test of every command's guard. -/
theorem commandWhileRunningRefused : Obligations.CommandWhileRunningRefused := by
  intro v x base size s h
  rw [exec_fromInstr, exec_writeInstr, exec_readInstr, exec_valueInstr]
  exact ⟨guarded_of_eq_some (idleGuard_of_running h) _,
    guarded_of_eq_some (writeGuard_of_running v base size h) _,
    guarded_of_eq_some (readGuard_of_running base size h) _,
    guarded_of_eq_some (codecGuard_of_running v h) _⟩

/-! ## The address width and the pending moves

No instruction and no move of the host writes `aw` or `inputs`; the step itself takes the one move. -/

/-- The address width and the host's pending moves are as they were. -/
def widthAndMovesSame (s t : State) : Prop := t.aw = s.aw ∧ t.inputs = s.inputs

theorem construct_widthAndMovesSame {v : Variant} {x : Word} {s t : State}
    (h : construct v x s = .next t) : widthAndMovesSame s t := by
  obtain ⟨-, rfl⟩ := construct_next h
  exact ⟨rfl, rfl⟩

theorem extractValue_widthAndMovesSame {v : Variant} {s t : State}
    (h : extractValue v s = .next t) : widthAndMovesSame s t := by
  obtain ⟨-, -, -, rfl⟩ := extractValue_next h
  exact ⟨rfl, rfl⟩

theorem writeInto_widthAndMovesSame {v : Variant} {base cap : Nat} {s t : State}
    (h : writeInto v base cap s = .next t) : widthAndMovesSame s t := by
  obtain ⟨-, -, -, -, ⟨-, rfl⟩ | ⟨-, rfl⟩⟩ := writeInto_next h
  · exact ⟨rfl, rfl⟩
  · exact ⟨rfl, rfl⟩

theorem readFrom_widthAndMovesSame {v : Variant} {base len : Nat} {s t : State}
    (h : readFrom v base len s = .next t) : widthAndMovesSame s t := by
  obtain ⟨-, -, ⟨x, n, -, rfl⟩ | ⟨e, -, rfl⟩⟩ := readFrom_next h
  · exact ⟨rfl, rfl⟩
  · exact ⟨rfl, rfl⟩

theorem startEncoder_widthAndMovesSame {v : Variant} {base cap : Nat} {s t : State}
    (h : startEncoder v base cap s = .next t) : widthAndMovesSame s t := by
  obtain ⟨-, -, -, -, rfl⟩ := startEncoder_next h
  exact ⟨rfl, rfl⟩

theorem startDecoder_widthAndMovesSame {v : Variant} {base len : Nat} {s t : State}
    (h : startDecoder v base len s = .next t) : widthAndMovesSame s t := by
  obtain ⟨-, -, rfl⟩ := startDecoder_next h
  exact ⟨rfl, rfl⟩

/-- An `ACCUM` that completes had an index in its range and delivered its output (R89). -/
theorem execAccum_next {acc : Word} {idx : Nat} {b : Byte} {s t : State} (h : execAccum acc idx b s = .next t) :
    idx ≤ 9 ∧ t = deliverAcc (accumulate acc idx b) s := by
  unfold execAccum at h
  split at h
  next hidx => exact ⟨hidx, (Host.Outcome.next.inj h).symm⟩
  next => cases h

/-- A `SEXT` that completes had a count in its range and delivered its output (R90). -/
theorem execSext_next {acc : Word} {n : Nat} {p : Group} {s t : State} (h : execSext acc n p s = .next t) :
    (1 ≤ n ∧ n ≤ 10) ∧ t = deliverAcc (extendSign acc n p) s := by
  unfold execSext at h
  split at h
  next hn => exact ⟨hn, (Host.Outcome.next.inj h).symm⟩
  next => cases h

theorem consumeByte_widthAndMovesSame (b : Byte) (s : State) : widthAndMovesSame s (consumeByte b s) := by
  obtain ⟨-, heq⟩ | ⟨-, -, heq⟩ | ⟨-, -, -, heq⟩ | ⟨-, -, -, -, heq⟩ | ⟨-, -, -, -, heq⟩ :=
    consumeByte_cases b s <;>
  · rw [heq]
    exact ⟨rfl, rfl⟩

theorem byteStep_widthAndMovesSame {b : Byte} {s t : State} (h : byteStep b s = .next t) :
    widthAndMovesSame s t := by
  obtain ⟨-, rfl⟩ := byteStep_next h
  exact consumeByte_widthAndMovesSame b s

/-- No instruction writes the address width or the host's moves. -/
theorem exec_widthAndMovesSame {i : Instr} {s t : State} (h : exec i s = .next t) : widthAndMovesSame s t := by
  cases i with
  | uleb128From x => exact construct_widthAndMovesSame h
  | sleb128From x => exact construct_widthAndMovesSame h
  | uleb128WriteInto base cap => exact writeInto_widthAndMovesSame h
  | sleb128WriteInto base cap => exact writeInto_widthAndMovesSame h
  | uleb128ReadFrom base len => exact readFrom_widthAndMovesSame h
  | sleb128ReadFrom base len => exact readFrom_widthAndMovesSame h
  | uleb128Value => exact extractValue_widthAndMovesSame h
  | sleb128Value => exact extractValue_widthAndMovesSame h
  | chunkU rem =>
    obtain rfl := Host.Outcome.next.inj h
    exact ⟨rfl, rfl⟩
  | chunkS rem =>
    obtain rfl := Host.Outcome.next.inj h
    exact ⟨rfl, rfl⟩
  | accum acc idx b =>
    obtain ⟨-, rfl⟩ := execAccum_next h
    exact ⟨rfl, rfl⟩
  | sext acc n p =>
    obtain ⟨-, rfl⟩ := execSext_next h
    exact ⟨rfl, rfl⟩
  | byteContinuation p => exact byteStep_widthAndMovesSame h
  | byteTerminator p => exact byteStep_widthAndMovesSame h

/-- A command given to the micro-sequencer starts it or is run as `exec` runs it. -/
theorem acceptCommand_widthAndMovesSame {i : Instr} {s t : State} (h : acceptCommand i s = .next t) :
    widthAndMovesSame s t := by
  unfold acceptCommand at h
  split at h
  case h_1 | h_2 => exact startEncoder_widthAndMovesSame h
  case h_3 | h_4 => exact startDecoder_widthAndMovesSame h
  all_goals exact exec_widthAndMovesSame h

theorem encTick_widthAndMovesSame (s : State) : widthAndMovesSame s (encTick s) := by
  obtain ⟨-, heq⟩ | ⟨-, -, heq⟩ | ⟨-, -, heq⟩ := encTick_cases s <;>
  · rw [heq]
    exact ⟨rfl, rfl⟩

theorem endOfWindow_widthAndMovesSame (s : State) : widthAndMovesSame s (endOfWindow s) := by
  unfold endOfWindow
  split
  · exact ⟨rfl, rfl⟩
  · exact ⟨rfl, rfl⟩

theorem tick_widthAndMovesSame {s t : State} (h : tick s = .next t) : widthAndMovesSame s t := by
  obtain ⟨-, heq⟩ | ⟨-, heq⟩ | ⟨-, -, heq⟩ | ⟨-, -, heq⟩ := tick_eq s <;> rw [heq] at h
  · obtain rfl := Host.Outcome.next.inj h
    exact ⟨rfl, rfl⟩
  · obtain rfl := Host.Outcome.next.inj h
    exact encTick_widthAndMovesSame s
  · exact exec_widthAndMovesSame h
  · obtain rfl := Host.Outcome.next.inj h
    exact endOfWindow_widthAndMovesSame s

theorem runUnit_widthAndMovesSame {u : UnitPorts} {s t : State} (h : runUnit u s = .next t) :
    widthAndMovesSame s t := by
  unfold runUnit at h
  split at h
  · exact exec_widthAndMovesSame h
  · cases h

/-- No move of the host writes the address width or the moves after it. -/
theorem runInput_widthAndMovesSame {x : Input} {s t : State} (h : runInput x s = .next t) :
    widthAndMovesSame s t := by
  cases x with
  | issue p => exact exec_widthAndMovesSame h
  | accept p => exact acceptCommand_widthAndMovesSame h
  | tick => exact tick_widthAndMovesSame h
  | unit u => exact runUnit_widthAndMovesSame h
  | hostWrite a b =>
    obtain ⟨-, -, rfl⟩ := hostWrite_next h
    exact ⟨rfl, rfl⟩
  | hostRead a =>
    obtain ⟨-, rfl⟩ := hostRead_next h
    exact ⟨rfl, rfl⟩
  | reset =>
    obtain rfl := Host.Outcome.next.inj h
    exact ⟨rfl, rfl⟩

/-- Settles O56, by the host's next move: with none the state stays, with one the rest of the list is what the move leaves. -/
theorem stepKeepsAddressWidth : Obligations.StepKeepsAddressWidth := by
  intro s t h
  cases hin : s.inputs with
  | nil =>
    rw [step, hin] at h
    obtain rfl := Host.Outcome.next.inj h
    exact ⟨rfl, hin⟩
  | cons x rest =>
    rw [step_of_inputs_cons hin] at h
    exact runInput_widthAndMovesSame h

end Sys2Proof.Machine
end

section
/-! SUPPORT. Family 10_state: the values at reset, construction and extraction, the refusals for want of a codec, what an
acceptance loads, and which moves of the host can change the codec. -/

namespace Sys2Proof.Machine

/-! ## Reset -/

/-- Settles O57: the three fields R35 names, as `State.reset` writes them. -/
theorem resetValues : Obligations.ResetValues := ⟨rfl, rfl, rfl⟩

theorem reset_memInSpace : memInSpace State.reset := fun _ hc => absurd hc List.not_mem_nil

/-- Settles O47: the memory lists nothing and no command is in progress. -/
theorem invariantHoldsAtReset : Obligations.InvariantHoldsAtReset :=
  ⟨reset_mem_wf, reset_memInSpace, fun henc => Phase.noConfusion henc, fun hdec => Phase.noConfusion hdec⟩

/-! ## Construction, then extraction -/

theorem construct_of_idle (v : Variant) (x : Word) {s : State} (h : s.phase = .idle) :
    construct v x s = .next (returnOk (holdCodec v x s)) :=
  guarded_eq_next.2 ⟨idleGuard_eq_none.2 h, rfl⟩

theorem extractValue_of_codec {v : Variant} {s : State} (hidle : s.phase = .idle) (hvld : s.c.vld = true)
    (htag : s.c.tag = v) : extractValue v s = .next (returnOk { s with rval := s.c.val }) :=
  guarded_eq_next.2 ⟨codecGuard_eq_none.2 ⟨hidle, hvld, htag⟩, rfl⟩

/-- Settles O15: the state a construction leaves meets the guard of the extraction, and its `C.VAL` is the operand. -/
theorem fromThenValueLossless : Obligations.FromThenValueLossless := by
  intro v x s hidle
  exact ⟨_, _, (exec_fromInstr v x s).trans (construct_of_idle v x hidle),
    (exec_valueInstr v _).trans (extractValue_of_codec rfl rfl rfl), rfl⟩

/-! ## Refusals for want of a codec -/

theorem codecGuard_of_noCodec (v : Variant) {s : State} (hidle : s.phase = .idle) (hvld : s.c.vld = false) :
    codecGuard v s = some .noCodec := by
  simp [codecGuard, hidle, hvld]

theorem codecGuard_of_wrongVariant {v : Variant} {s : State} (hidle : s.phase = .idle) (hvld : s.c.vld = true)
    (htag : s.c.tag ≠ v) : codecGuard v s = some .wrongVariant := by
  simp [codecGuard, hidle, hvld, htag]

/-- What the codec's guard refuses is refused by `WRITE_INTO`, whatever the window, and by `VALUE`, for the same reason. -/
theorem refused_of_codecGuard {v : Variant} {s : State} {r : Refusal} (h : codecGuard v s = some r)
    (base cap : Nat) :
    exec (writeInstr v base cap) s = .refused r ∧ exec (valueInstr v) s = .refused r := by
  have hwrite : writeGuard v base cap s = some r := by rw [writeGuard, h]
  rw [exec_writeInstr, exec_valueInstr]
  exact ⟨guarded_of_eq_some hwrite _, guarded_of_eq_some h _⟩

/-- Settles O16: both commands put the codec's guard first. -/
theorem withoutCodecRefused : Obligations.WithoutCodecRefused :=
  ⟨fun v base cap _ hidle hvld => refused_of_codecGuard (codecGuard_of_noCodec v hidle hvld) base cap,
   fun _ base cap _ hidle hvld htag => refused_of_codecGuard (codecGuard_of_wrongVariant hidle hvld htag) base cap⟩

/-! ## A command given to the micro-sequencer -/

theorem acceptCommand_fromInstr (v : Variant) (x : Word) (s : State) :
    acceptCommand (fromInstr v x) s = construct v x s := by
  cases v <;> rfl

theorem acceptCommand_writeInstr (v : Variant) (base cap : Nat) (s : State) :
    acceptCommand (writeInstr v base cap) s = startEncoder v base cap s := by
  cases v <;> rfl

theorem acceptCommand_readInstr (v : Variant) (base len : Nat) (s : State) :
    acceptCommand (readInstr v base len) s = startDecoder v base len s := by
  cases v <;> rfl

theorem acceptCommand_valueInstr (v : Variant) (s : State) :
    acceptCommand (valueInstr v) s = extractValue v s := by
  cases v <;> rfl

/-- A step whose next move gives the sequencer a command is the acceptance of the command decoded from the ports. -/
theorem step_of_accept {s : State} {p : CmdPorts} {rest : List Input} {i : Instr}
    (hin : s.inputs = .accept p :: rest) (hdec : decodeCmd p = i) :
    step s = acceptCommand i { s with inputs := rest } := by
  subst hdec
  exact step_of_inputs_cons hin

/-- Settles O3: the acceptance is that of the decoded command, whose guard the hypotheses meet. -/
theorem acceptanceLoadsSequencer : Obligations.AcceptanceLoadsSequencer := by
  refine ⟨fun s v p rest base cap hin hdec hidle hvld htag hfits => ?_,
    fun s v p rest base len hin hdec hidle hfits => ?_⟩
  · rw [step_of_accept hin hdec, acceptCommand_writeInstr]
    exact guarded_eq_next.2 ⟨writeGuard_eq_none.2 ⟨hidle, hvld, htag, hfits⟩, rfl⟩
  · rw [step_of_accept hin hdec, acceptCommand_readInstr]
    exact guarded_eq_next.2 ⟨readGuard_eq_none.2 ⟨hidle, hfits⟩, rfl⟩

/-! ## What changes the codec

First the meanings that leave the codec alone, then the three that construct one, then the host's moves one by one. -/

theorem extractValue_keeps_codec {v : Variant} {s t : State} (h : extractValue v s = .next t) : t.c = s.c := by
  obtain ⟨-, -, -, rfl⟩ := extractValue_next h
  rfl

theorem writeInto_keeps_codec {v : Variant} {base cap : Nat} {s t : State}
    (h : writeInto v base cap s = .next t) : t.c = s.c := by
  obtain ⟨-, -, -, -, ⟨-, rfl⟩ | ⟨-, rfl⟩⟩ := writeInto_next h
  · rfl
  · rfl

theorem startEncoder_keeps_codec {v : Variant} {base cap : Nat} {s t : State}
    (h : startEncoder v base cap s = .next t) : t.c = s.c := by
  obtain ⟨-, -, -, -, rfl⟩ := startEncoder_next h
  rfl

theorem startDecoder_keeps_codec {v : Variant} {base len : Nat} {s t : State}
    (h : startDecoder v base len s = .next t) : t.c = s.c := by
  obtain ⟨-, -, rfl⟩ := startDecoder_next h
  rfl

@[simp] theorem encTick_c (s : State) : (encTick s).c = s.c := by
  obtain ⟨-, heq⟩ | ⟨-, -, heq⟩ | ⟨-, -, heq⟩ := encTick_cases s <;> simp [heq]

@[simp] theorem endOfWindow_c (s : State) : (endOfWindow s).c = s.c := by
  unfold endOfWindow
  split <;> simp

/-- The inputs of a function unit decode to one of the four micro-operations (R77). -/
theorem decodeUnit_cases {u : UnitPorts} {i : Instr} (h : decodeUnit u = .ok i) :
    i = .chunkU u.word ∨ i = .chunkS u.word ∨ i = .accum u.word u.index.toNat u.byte ∨
      i = .sext u.word (u.index.toNat + 1) u.payload := by
  unfold decodeUnit at h
  split_ifs at h
  · exact .inl (Except.ok.inj h).symm
  · exact .inr (.inl (Except.ok.inj h).symm)
  · exact .inr (.inr (.inl (Except.ok.inj h).symm))
  · exact .inr (.inr (.inr (Except.ok.inj h).symm))

theorem runUnit_keeps_codec {u : UnitPorts} {s t : State} (h : runUnit u s = .next t) : t.c = s.c := by
  cases hdec : decodeUnit u with
  | error r =>
    rw [runUnit, hdec] at h
    cases h
  | ok i =>
    rw [runUnit_of_decodeUnit hdec] at h
    obtain rfl | rfl | rfl | rfl := decodeUnit_cases hdec
    · obtain rfl := Host.Outcome.next.inj h
      rfl
    · obtain rfl := Host.Outcome.next.inj h
      rfl
    · obtain ⟨-, rfl⟩ := execAccum_next h
      rfl
    · obtain ⟨-, rfl⟩ := execSext_next h
      rfl

/-- A codec of variant `v` was constructed, with success. -/
def codecConstructed (v : Variant) (t : State) : Prop := t.stat = 0 ∧ t.c.vld = true ∧ t.c.tag = v

theorem construct_codec {v : Variant} {x : Word} {s t : State} (h : construct v x s = .next t) :
    codecConstructed v t ∧ t.c.val = x := by
  obtain ⟨-, rfl⟩ := construct_next h
  exact ⟨⟨rfl, rfl, rfl⟩, rfl⟩

theorem readFrom_codec {v : Variant} {base len : Nat} {s t : State} (h : readFrom v base len s = .next t) :
    t.c = s.c ∨ codecConstructed v t := by
  obtain ⟨-, -, ⟨x, n, -, rfl⟩ | ⟨e, -, rfl⟩⟩ := readFrom_next h
  · exact .inr ⟨rfl, rfl, rfl⟩
  · exact .inl rfl

/-- Of what a decode does with a byte, only the terminator in range writes the codec (R93). -/
theorem consumeByte_codec (b : Byte) (s : State) :
    (consumeByte b s).c = s.c ∨ codecConstructed s.mode (consumeByte b s) := by
  obtain ⟨-, heq⟩ | ⟨-, -, heq⟩ | ⟨-, -, -, heq⟩ | ⟨-, -, -, -, heq⟩ | ⟨-, -, -, -, heq⟩ :=
    consumeByte_cases b s <;> rw [heq]
  case inr.inr.inr.inr => exact .inr ⟨rfl, rfl, rfl⟩
  all_goals exact .inl rfl

/-- The byte form a byte decodes to is executed as that byte. -/
theorem exec_decodeByte (b : Byte) (s : State) : exec (decodeByte b) s = byteStep b s := by
  have hbyte := mkByte_contOf_payloadOf b
  unfold decodeByte
  cases hcont : contOf b <;>
  · rw [hcont] at hbyte
    exact congrArg (byteStep · s) hbyte

theorem tick_codec {s t : State} (h : tick s = .next t) :
    t.c = s.c ∨ (s.phase = .dec ∧ codecConstructed s.mode t) := by
  obtain ⟨-, heq⟩ | ⟨-, heq⟩ | ⟨hdec, -, heq⟩ | ⟨-, -, heq⟩ := tick_eq s <;> rw [heq] at h
  · obtain rfl := Host.Outcome.next.inj h
    exact .inl rfl
  · obtain rfl := Host.Outcome.next.inj h
    exact .inl (encTick_c s)
  · rw [exec_decodeByte] at h
    obtain ⟨-, rfl⟩ := byteStep_next h
    exact (consumeByte_codec _ s).imp_right (⟨hdec, ·⟩)
  · obtain rfl := Host.Outcome.next.inj h
    exact .inl (endOfWindow_c s)

/-- A command code is one of the four commands of one of the two variants (R76). -/
theorem decodeCmd_cases (p : CmdPorts) :
    (∃ v, decodeCmd p = fromInstr v p.operand) ∨ (∃ v, decodeCmd p = writeInstr v p.base p.cap) ∨
    (∃ v, decodeCmd p = readInstr v p.base p.len) ∨ (∃ v, decodeCmd p = valueInstr v) := by
  unfold decodeCmd
  split_ifs
  · exact .inl ⟨.sleb, rfl⟩
  · exact .inl ⟨.uleb, rfl⟩
  · exact .inr (.inl ⟨.sleb, rfl⟩)
  · exact .inr (.inl ⟨.uleb, rfl⟩)
  · exact .inr (.inr (.inl ⟨.sleb, rfl⟩))
  · exact .inr (.inr (.inl ⟨.uleb, rfl⟩))
  · exact .inr (.inr (.inr ⟨.sleb, rfl⟩))
  · exact .inr (.inr (.inr ⟨.uleb, rfl⟩))

/-- A command run at the transaction level changes the codec as a `FROM` or as a `READ_FROM` that succeeds. -/
theorem issue_codec {p : CmdPorts} {s t : State} (h : exec (decodeCmd p) s = .next t) :
    t.c = s.c ∨ ∃ v, codecConstructed v t ∧
      (decodeCmd p = fromInstr v t.c.val ∨ decodeCmd p = readInstr v p.base p.len) := by
  obtain ⟨v, hdec⟩ | ⟨v, hdec⟩ | ⟨v, hdec⟩ | ⟨v, hdec⟩ := decodeCmd_cases p <;> rw [hdec] at h
  · rw [exec_fromInstr] at h
    obtain ⟨hnew, hval⟩ := construct_codec h
    exact .inr ⟨v, hnew, .inl (hval ▸ hdec)⟩
  · rw [exec_writeInstr] at h
    exact .inl (writeInto_keeps_codec h)
  · rw [exec_readInstr] at h
    exact (readFrom_codec h).imp_right fun hnew => ⟨v, hnew, .inr hdec⟩
  · rw [exec_valueInstr] at h
    exact .inl (extractValue_keeps_codec h)

/-- A command given to the micro-sequencer changes the codec as a `FROM` only. -/
theorem accept_codec {p : CmdPorts} {s t : State} (h : acceptCommand (decodeCmd p) s = .next t) :
    t.c = s.c ∨ ∃ v, codecConstructed v t ∧ decodeCmd p = fromInstr v t.c.val := by
  obtain ⟨v, hdec⟩ | ⟨v, hdec⟩ | ⟨v, hdec⟩ | ⟨v, hdec⟩ := decodeCmd_cases p <;> rw [hdec] at h
  · rw [acceptCommand_fromInstr] at h
    obtain ⟨hnew, hval⟩ := construct_codec h
    exact .inr ⟨v, hnew, hval ▸ hdec⟩
  · rw [acceptCommand_writeInstr] at h
    exact .inl (startEncoder_keeps_codec h)
  · rw [acceptCommand_readInstr] at h
    exact .inl (startDecoder_keeps_codec h)
  · rw [acceptCommand_valueInstr] at h
    exact .inl (extractValue_keeps_codec h)

/-- Settles O50, by the host's next move: each move keeps the codec or constructs one, but for the reset. -/
theorem onlyConstructionWritesCodec : Obligations.OnlyConstructionWritesCodec := by
  intro s t h hne
  cases hin : s.inputs with
  | nil =>
    rw [step, hin] at h
    obtain rfl := Host.Outcome.next.inj h
    exact absurd rfl hne
  | cons x rest =>
    rw [step_of_inputs_cons hin] at h
    cases x with
    | issue p =>
      obtain ⟨v, ⟨hstat, hvld, rfl⟩, hfrom | hread⟩ := (issue_codec h).resolve_left hne
      · exact .inr ⟨hstat, hvld, .inl ⟨p, rest, _, .inl rfl, hfrom, rfl⟩⟩
      · exact .inr ⟨hstat, hvld, .inr (.inl ⟨p, rest, _, _, rfl, hread⟩)⟩
    | accept p =>
      obtain ⟨v, ⟨hstat, hvld, rfl⟩, hfrom⟩ := (accept_codec h).resolve_left hne
      exact .inr ⟨hstat, hvld, .inl ⟨p, rest, _, .inr rfl, hfrom, rfl⟩⟩
    | tick =>
      obtain ⟨hdec, hstat, hvld, htag⟩ := (tick_codec h).resolve_left hne
      exact .inr ⟨hstat, hvld, .inr (.inr ⟨rest, rfl, hdec, htag⟩)⟩
    | unit u => exact absurd (runUnit_keeps_codec h) hne
    | hostWrite a b =>
      obtain ⟨-, -, rfl⟩ := hostWrite_next h
      exact absurd rfl hne
    | hostRead a =>
      obtain ⟨-, rfl⟩ := hostRead_next h
      exact absurd rfl hne
    | reset => exact .inl ⟨rest, rfl⟩

end Sys2Proof.Machine
end

section
/-! SUPPORT. Family 20_memory: the refusal of a wrapping window, that the canonical form is unique, which instructions write and
which read the memory, what a decode looks at, and the bits of the bytes an encode writes. -/

namespace Sys2Proof.Machine

/-! ## A window that wraps -/

/-- A command whose guard does not let it run is refused. -/
theorem guarded_of_ne_none {g : Option Refusal} (h : g ≠ none) (t : State) : ∃ r, guarded g t = .refused r := by
  obtain ⟨r, hr⟩ := Option.ne_none_iff_exists'.1 h
  exact ⟨r, guarded_of_eq_some hr t⟩

/-- Settles O17: both guards that look at the window ask that it fits. -/
theorem wrappingWindowRefused : Obligations.WrappingWindowRefused := by
  intro v base size s hwraps
  rw [exec_writeInstr, exec_readInstr]
  constructor
  · refine guarded_of_ne_none (fun hg => ?_) _
    obtain ⟨-, -, -, hfits⟩ := writeGuard_eq_none.1 hg
    exact Nat.not_lt.2 hfits hwraps
  · refine guarded_of_ne_none (fun hg => ?_) _
    obtain ⟨-, hfits⟩ := readGuard_eq_none.1 hg
    exact Nat.not_lt.2 hfits hwraps

/-! ## The canonical form is unique

In the canonical form the entries of a memory are exactly its reads that differ from what an unlisted address reads as. -/

theorem memRead_of_not_listed {m : Memory} {a : Nat} (h : ∀ c ∈ m, c.1 ≠ a) : memRead m a = unlistedByte := by
  induction m with
  | nil => rfl
  | cons c m ih =>
    rw [memRead, if_neg (h c List.mem_cons_self)]
    exact ih fun d hd => h d (List.mem_cons_of_mem c hd)

theorem memRead_of_mem {m : Memory} (hm : m.Pairwise (fun c d => c.1 < d.1)) {c : Host.Cell} (hc : c ∈ m) :
    memRead m c.1 = c.2 := by
  induction m with
  | nil => cases hc
  | cons d m ih =>
    obtain ⟨hd, hm⟩ := List.pairwise_cons.1 hm
    obtain rfl | hc := List.mem_cons.1 hc
    · exact if_pos rfl
    · rw [memRead, if_neg (Nat.ne_of_lt (hd c hc))]
      exact ih hm hc

theorem mem_iff_memRead {m : Memory} (hm : m.wf) (c : Host.Cell) :
    c ∈ m ↔ memRead m c.1 = c.2 ∧ c.2 ≠ unlistedByte := by
  obtain ⟨hsorted, hlisted⟩ := hm
  constructor
  · exact fun hc => ⟨memRead_of_mem hsorted hc, hlisted c hc⟩
  · rintro ⟨hread, hne⟩
    by_contra hc
    refine hne (hread.symm.trans (memRead_of_not_listed fun d hd haddr => ?_))
    have hbyte : d.2 = c.2 := by rw [← memRead_of_mem hsorted hd, haddr, hread]
    exact hc (Prod.ext haddr hbyte ▸ hd)

/-- Settles O49: the reads fix the entries, and the rising addresses fix their order. -/
theorem equalReadsEqualMemory : Obligations.EqualReadsEqualMemory := by
  intro m n hm hn hreads
  have : Std.Antisymm fun c d : Host.Cell => c.1 < d.1 := ⟨fun _ _ h h' => absurd h' (Nat.lt_asymm h)⟩
  have : Std.Irrefl fun c d : Host.Cell => c.1 < d.1 := ⟨fun c => Nat.lt_irrefl c.1⟩
  refine hm.1.eq_of_mem_iff hn.1 fun c => ?_
  rw [mem_iff_memRead hm, mem_iff_memRead hn, hreads]

/-! ## What writes the memory -/

theorem construct_mem {v : Variant} {x : Word} {s t : State} (h : construct v x s = .next t) : t.mem = s.mem := by
  obtain ⟨-, rfl⟩ := construct_next h
  rfl

theorem extractValue_mem {v : Variant} {s t : State} (h : extractValue v s = .next t) : t.mem = s.mem := by
  obtain ⟨-, -, -, rfl⟩ := extractValue_next h
  rfl

theorem readFrom_mem {v : Variant} {base len : Nat} {s t : State} (h : readFrom v base len s = .next t) :
    t.mem = s.mem := by
  obtain ⟨-, -, ⟨x, n, -, rfl⟩ | ⟨e, -, rfl⟩⟩ := readFrom_next h
  · rfl
  · rfl

@[simp] theorem consumeByte_mem (b : Byte) (s : State) : (consumeByte b s).mem = s.mem := by
  obtain ⟨-, heq⟩ | ⟨-, -, heq⟩ | ⟨-, -, -, heq⟩ | ⟨-, -, -, -, heq⟩ | ⟨-, -, -, -, heq⟩ :=
    consumeByte_cases b s <;> simp [heq]

theorem byteStep_mem {b : Byte} {s t : State} (h : byteStep b s = .next t) : t.mem = s.mem := by
  obtain ⟨-, rfl⟩ := byteStep_next h
  exact consumeByte_mem b s

/-- No instruction but a `WRITE_INTO` changes the memory (R43). -/
theorem exec_mem {i : Instr} {s t : State} (h : exec i s = .next t)
    (hwrite : ∀ v base cap, i ≠ writeInstr v base cap) : t.mem = s.mem := by
  cases i with
  | uleb128From x => exact construct_mem h
  | sleb128From x => exact construct_mem h
  | uleb128WriteInto base cap => exact absurd rfl (hwrite .uleb base cap)
  | sleb128WriteInto base cap => exact absurd rfl (hwrite .sleb base cap)
  | uleb128ReadFrom base len => exact readFrom_mem h
  | sleb128ReadFrom base len => exact readFrom_mem h
  | uleb128Value => exact extractValue_mem h
  | sleb128Value => exact extractValue_mem h
  | chunkU rem =>
    obtain rfl := Host.Outcome.next.inj h
    rfl
  | chunkS rem =>
    obtain rfl := Host.Outcome.next.inj h
    rfl
  | accum acc idx b =>
    obtain ⟨-, rfl⟩ := execAccum_next h
    rfl
  | sext acc n p =>
    obtain ⟨-, rfl⟩ := execSext_next h
    rfl
  | byteContinuation p => exact byteStep_mem h
  | byteTerminator p => exact byteStep_mem h

/-- A `WRITE_INTO` leaves every byte outside its window, and every byte at an index of 10 or more, as it was (R48): with no
room the window is shorter than the encoding, with room only the encoding is written. -/
theorem writeInto_memRead_outside {v : Variant} {base cap a : Nat} {s t : State}
    (h : writeInto v base cap s = .next t) (ha : ¬(base ≤ a ∧ a < base + cap ∧ a < base + 10)) :
    memRead t.mem a = memRead s.mem a := by
  have hten := (encodeBytes_length v s.c.val).2
  obtain ⟨-, -, -, -, ⟨hcap, rfl⟩ | ⟨hcap, rfl⟩⟩ := writeInto_next h
  · exact memRead_memScramble_outside _ _ _ _ _ (by omega)
  · exact memRead_memWriteBytes_outside _ _ _ _ (by omega)

/-- Settles O51: an instruction that changes a byte is a `WRITE_INTO`, and the byte is none of those it leaves. -/
theorem onlyWriteIntoWritesMemory : Obligations.OnlyWriteIntoWritesMemory := by
  intro i s t a h hne
  by_cases hwrite : ∀ v base cap, i ≠ writeInstr v base cap
  · exact absurd (congrArg (memRead · a) (exec_mem h hwrite)) hne
  · push Not at hwrite
    obtain ⟨v, base, cap, rfl⟩ := hwrite
    rw [exec_writeInstr] at h
    exact ⟨v, base, cap, rfl, not_not.1 fun hout => hne (writeInto_memRead_outside h hout)⟩

/-! ## What reads the memory -/

/-- The state with another memory. -/
def withMem (m : Memory) (s : State) : State := { s with mem := m }

@[simp] theorem withMem_mem (m : Memory) (s : State) : (withMem m s).mem = m := rfl
@[simp] theorem withMem_c (m : Memory) (s : State) : (withMem m s).c = s.c := rfl

/-- `f` does the same to every field but the memory, whatever the memory holds. -/
def ignoresMemory (f : State → Host.Outcome State Fault Refusal) : Prop :=
  ∀ (s t : State) (m : Memory), f s = .next t →
    ∃ u, f (withMem m s) = .next u ∧ withMem t.mem u = t

/-- A guarded command ignores the memory when its guard and its effect do. -/
theorem guarded_ignoresMemory {g : State → Option Refusal} {e : State → State}
    (hg : ∀ s m, g (withMem m s) = g s) (he : ∀ s m, withMem (e s).mem (e (withMem m s)) = e s) :
    ignoresMemory fun s => guarded (g s) (e s) := by
  intro s t m h
  obtain ⟨hnone, rfl⟩ := guarded_eq_next.1 h
  exact ⟨_, guarded_eq_next.2 ⟨(hg s m).trans hnone, rfl⟩, he s m⟩

theorem construct_ignoresMemory (v : Variant) (x : Word) : ignoresMemory (construct v x) :=
  guarded_ignoresMemory (fun _ _ => rfl) fun _ _ => rfl

theorem extractValue_ignoresMemory (v : Variant) : ignoresMemory (extractValue v) :=
  guarded_ignoresMemory (fun _ _ => rfl) fun _ _ => rfl

theorem writeEffect_of_lt {v : Variant} {base cap : Nat} {s : State} (h : cap < (encodeBytes v s.c.val).length) :
    writeEffect v base cap s = raiseError .bufferTooSmall (scrambleWindow base cap (forgetEncoder v s)) :=
  if_pos h

theorem writeEffect_of_le {v : Variant} {base cap : Nat} {s : State} (h : (encodeBytes v s.c.val).length ≤ cap) :
    writeEffect v base cap s = returnLen (BitVec.ofNat 4 (encodeBytes v s.c.val).length)
      { forgetEncoder v s with mem := memWriteBytes s.mem base (encodeBytes v s.c.val) } :=
  if_neg (Nat.not_lt.2 h)

/-- The length of the encoding decides what a `WRITE_INTO` does, and it is a function of the codec alone. -/
theorem writeInto_ignoresMemory (v : Variant) (base cap : Nat) : ignoresMemory (writeInto v base cap) := by
  refine guarded_ignoresMemory (fun _ _ => rfl) fun s m => ?_
  by_cases hcap : cap < (encodeBytes v s.c.val).length
  · rw [writeEffect_of_lt hcap, writeEffect_of_lt (s := withMem m s) hcap]
    rfl
  · rw [writeEffect_of_le (Nat.le_of_not_lt hcap), writeEffect_of_le (s := withMem m s) (Nat.le_of_not_lt hcap)]
    rfl

/-- A decode that is given its byte does not look at the memory: none of its tests and none of its ends do. -/
theorem consumeByte_withMem (b : Byte) (s : State) (m : Memory) :
    consumeByte b (withMem m s) = withMem m (consumeByte b s) := by
  simp only [consumeByte, endOfWindow, apply_ite (withMem m)]
  rfl

theorem byteStep_ignoresMemory (b : Byte) : ignoresMemory (byteStep b) := by
  intro s t m h
  obtain ⟨hdec, rfl⟩ := byteStep_next h
  have hnext : byteStep b (withMem m s) = .next (consumeByte b (withMem m s)) := if_pos hdec
  rw [consumeByte_withMem] at hnext
  exact ⟨_, hnext, rfl⟩

theorem execAccum_ignoresMemory (acc : Word) (idx : Nat) (b : Byte) : ignoresMemory (execAccum acc idx b) := by
  intro s t m h
  obtain ⟨hidx, rfl⟩ := execAccum_next h
  exact ⟨_, if_pos hidx, rfl⟩

theorem execSext_ignoresMemory (acc : Word) (n : Nat) (p : Group) : ignoresMemory (execSext acc n p) := by
  intro s t m h
  obtain ⟨hn, rfl⟩ := execSext_next h
  exact ⟨_, if_pos hn, rfl⟩

/-- Settles O52, by the instruction. -/
theorem onlyReadFromReadsMemory : Obligations.OnlyReadFromReadsMemory := by
  intro i s t m h hread
  cases i with
  | uleb128From x => exact construct_ignoresMemory .uleb x s t m h
  | sleb128From x => exact construct_ignoresMemory .sleb x s t m h
  | uleb128WriteInto base cap => exact writeInto_ignoresMemory .uleb base cap s t m h
  | sleb128WriteInto base cap => exact writeInto_ignoresMemory .sleb base cap s t m h
  | uleb128ReadFrom base len => exact absurd rfl (hread .uleb base len)
  | sleb128ReadFrom base len => exact absurd rfl (hread .sleb base len)
  | uleb128Value => exact extractValue_ignoresMemory .uleb s t m h
  | sleb128Value => exact extractValue_ignoresMemory .sleb s t m h
  | chunkU rem =>
    obtain rfl := Host.Outcome.next.inj h
    exact ⟨_, rfl, rfl⟩
  | chunkS rem =>
    obtain rfl := Host.Outcome.next.inj h
    exact ⟨_, rfl, rfl⟩
  | accum acc idx b => exact execAccum_ignoresMemory acc idx b s t m h
  | sext acc n p => exact execSext_ignoresMemory acc n p s t m h
  | byteContinuation p => exact byteStep_ignoresMemory _ s t m h
  | byteTerminator p => exact byteStep_ignoresMemory _ s t m h

/-! ## What a decode looks at -/

/-- A decode that succeeds from index `i` consumed at least one byte, none past the `left` positions and
none outside the window. -/
theorem decodeLoop_ok_bounds {v : Variant} {m : Memory} {base len left i n : Nat} {acc x : Word}
    (h : decodeLoop v m base len left i acc = .ok x n) : i < n ∧ n ≤ i + left ∧ n ≤ len := by
  induction left generalizing i acc with
  | zero =>
    unfold decodeLoop at h
    split at h <;> cases h
  | succ left ih =>
    unfold decodeLoop at h
    split_ifs at h with hlen hrange hcont
    · have := ih h
      omega
    · obtain ⟨-, rfl⟩ := Decoded.ok.inj h
      omega

/-- Index `k` is below the number of bytes consumed, where the decode succeeded. -/
def belowConsumed (d : Decoded) (k : Nat) : Prop := ∀ x n, d = .ok x n → k < n

/-- A decode from index `i` looks at its window only, at the `left` positions it has only, and where it succeeds at the bytes it
consumes only. -/
theorem decodeLoop_congr {v : Variant} {m m' : Memory} {base len left i : Nat} {acc : Word}
    (h : ∀ k, i ≤ k → k < len → k < i + left → belowConsumed (decodeLoop v m base len left i acc) k →
      memRead m' (base + k) = memRead m (base + k)) :
    decodeLoop v m' base len left i acc = decodeLoop v m base len left i acc := by
  induction left generalizing i acc with
  | zero => rfl
  | succ left ih =>
    by_cases hlen : len ≤ i
    · simp [decodeLoop, hlen]
    · have hbyte : memRead m' (base + i) = memRead m (base + i) :=
        h i le_rfl (by omega) (by omega) fun _ _ hok => (decodeLoop_ok_bounds hok).1
      simp only [decodeLoop, hbyte, hlen, if_false] at h ⊢
      split_ifs at h ⊢ with hrange hcont
      · rfl
      · exact ih fun k hik hk hleft => h k (by omega) hk (by omega)
      · rfl

/-- A `READ_FROM` that succeeds is a decode that did, its length in `RLEN`. -/
theorem readFrom_ok {v : Variant} {base len : Nat} {s t : State} (h : readFrom v base len s = .next t)
    (hstat : t.stat = 0) : ∃ x, decodeWindow v s.mem base len = .ok x t.rlen.toNat := by
  obtain ⟨-, -, ⟨x, n, hdec, rfl⟩ | ⟨e, -, rfl⟩⟩ := readFrom_next h
  · have hn : n ≤ 10 := by
      have := decodeLoop_ok_bounds hdec
      omega
    rw [returnLen_rlen, BitVec.toNat_ofNat, Nat.mod_eq_of_lt (by omega)]
    exact ⟨x, hdec⟩
  · cases e <;> cases hstat

/-- A `READ_FROM` does with another memory what it does with its own when the decode does. -/
theorem readFrom_withMem {v : Variant} {base len : Nat} {s t : State} {m : Memory}
    (h : readFrom v base len s = .next t)
    (hdec : decodeWindow v m base len = decodeWindow v s.mem base len) :
    readFrom v base len (withMem m s) = .next (withMem m t) := by
  obtain ⟨hg, rfl⟩ := guarded_eq_next.1 h
  refine guarded_eq_next.2 ⟨hg, ?_⟩
  simp only [readEffect, withMem_mem, hdec]
  split
  · rfl
  · rfl

/-- Settles O37: the two memories agree wherever the decode looks. -/
theorem readDependsOnSliceOnly : Obligations.ReadDependsOnSliceOnly := by
  intro v base len s t m h hagree
  rw [exec_readInstr] at h ⊢
  refine readFrom_withMem h (decodeLoop_congr fun k _ hlen hten hbelow => ?_)
  obtain hslice | ⟨hstat, hconsumed⟩ := hagree
  · exact hslice k hlen (by omega)
  · obtain ⟨x, hok⟩ := readFrom_ok h hstat
    exact hconsumed k (hbelow x _ hok)

/-! ## The bits of the bytes an encode writes -/

theorem payloadOf_getLsbD (b : Byte) {k : Nat} (hk : k < 7) : (payloadOf b).getLsbD k = b.getLsbD k := by
  simp [payloadOf, hk]

theorem mkByte_getLsbD (c : Bool) (p : Group) {k : Nat} (hk : k < 7) : (mkByte c p).getLsbD k = p.getLsbD k := by
  rw [← payloadOf_getLsbD _ hk, payloadOf_mkByte]

@[simp] theorem mkByte_getLsbD_cont (c : Bool) (p : Group) : (mkByte c p).getLsbD 7 = c := contOf_mkByte c p

theorem remAfter_zero (v : Variant) (x : Word) : remAfter v 0 x = x := by
  cases v <;> simp [remAfter]

/-- One chunk step shifts the remaining value by one group (R91). -/
theorem remAfter_succ (v : Variant) (k : Nat) (x : Word) :
    remAfter v (k + 1) x = remAfter v k (chunk v x).rem := by
  have hshift : 7 * (k + 1) = 7 + 7 * k := by omega
  cases v with
  | uleb => simp only [remAfter, chunk, chunkUnsigned, lsr7_eq, hshift, BitVec.shiftRight_add]
  | sleb => simp only [remAfter, chunk, chunkSigned, asr7_eq, hshift, BitVec.sshiftRight_add]

/-- Bit `k` of the remaining value after `i` groups is value bit `7i + k`, beyond bit 63 zero or the sign. -/
theorem remAfter_getLsbD (v : Variant) (i : Nat) (x : Word) {k : Nat} (hk : k < 64) :
    (remAfter v i x).getLsbD k =
      if 7 * i + k < 64 then x.getLsbD (7 * i + k) else (decide (v = .sleb) && x.getLsbD 63) := by
  cases v with
  | uleb =>
    rw [remAfter, BitVec.getLsbD_ushiftRight]
    split
    · rfl
    · rw [BitVec.getLsbD_of_ge x _ (by omega)]
      rfl
  | sleb =>
    rw [remAfter, BitVec.getLsbD_sshiftRight, BitVec.msb_eq_getLsbD_last]
    simp [hk]

/-- After nine signed shifts only copies of the sign are left. -/
theorem remAfter_nine_sleb (x : Word) : remAfter .sleb 9 x = if x.getLsbD 63 then ones64 else 0 := by
  refine BitVec.eq_of_getLsbD_eq fun j hj => ?_
  have hbit : (remAfter .sleb 9 x).getLsbD j = x.getLsbD 63 := by
    rw [remAfter_getLsbD .sleb 9 x hj]
    obtain rfl | hpos := Nat.eq_zero_or_pos j
    · rfl
    · exact if_neg (by omega)
  rw [hbit]
  cases x.getLsbD 63 <;> simp [hj]

/-- After nine groups one bit of the value and its extension are left, so the tenth group is the last (R91). -/
theorem chunk_remAfter_nine_last (v : Variant) (x : Word) : (chunk v (remAfter v 9 x)).last = true := by
  cases v with
  | uleb =>
    have hrem : lsr7 (x >>> 63) = 0 := by
      rw [lsr7_eq, ← BitVec.shiftRight_add]
      exact BitVec.ushiftRight_eq_zero (by omega)
    simp [chunk, chunkUnsigned, remAfter, hrem]
  | sleb =>
    rw [remAfter_nine_sleb]
    split
    · decide
    · decide

theorem encodeLoop_of_last {v : Variant} {rem : Word} (fuel : Nat) (h : (chunk v rem).last = true) :
    encodeLoop v (fuel + 1) rem = [mkByte false (lowGroup rem)] := by
  simp [encodeLoop, chunk_byte, h]

theorem encodeLoop_of_not_last {v : Variant} {rem : Word} (fuel : Nat) (h : (chunk v rem).last = false) :
    encodeLoop v (fuel + 1) rem = mkByte true (lowGroup rem) :: encodeLoop v fuel (chunk v rem).rem := by
  simp [encodeLoop, chunk_byte, h]

/-- A loop that ends with its first byte has that byte alone. -/
theorem encodeLoop_getElem_of_last {v : Variant} {fuel i : Nat} {rem : Word} (h : (chunk v rem).last = true)
    (hi : i < (encodeLoop v (fuel + 1) rem).length) :
    (encodeLoop v (fuel + 1) rem)[i] =
      mkByte (decide (i + 1 < (encodeLoop v (fuel + 1) rem).length)) (lowGroup (remAfter v i rem)) := by
  simp only [encodeLoop_of_last _ h] at hi ⊢
  obtain rfl : i = 0 := by simpa using hi
  simp [remAfter_zero]

/-- Where the value is used up within the fuel, byte `i` of the encoder's loop is the low group of what is left after `i` groups,
with the continuation bit set exactly before the last byte. -/
theorem encodeLoop_getElem {v : Variant} {fuel i : Nat} {rem : Word}
    (hlast : (chunk v (remAfter v fuel rem)).last = true) (hi : i < (encodeLoop v (fuel + 1) rem).length) :
    (encodeLoop v (fuel + 1) rem)[i] =
      mkByte (decide (i + 1 < (encodeLoop v (fuel + 1) rem).length)) (lowGroup (remAfter v i rem)) := by
  induction fuel generalizing rem i with
  | zero => exact encodeLoop_getElem_of_last (remAfter_zero v rem ▸ hlast) hi
  | succ fuel ih =>
    cases hend : (chunk v rem).last with
    | true => exact encodeLoop_getElem_of_last hend hi
    | false =>
      simp only [encodeLoop_of_not_last _ hend] at hi ⊢
      cases i with
      | zero =>
        have hmore : 0 < (encodeLoop v (fuel + 1) (chunk v rem).rem).length := (encodeLoop_length v fuel _).1
        simp [remAfter_zero, hmore]
      | succ i =>
        rw [remAfter_succ] at hlast ⊢
        simpa using ih hlast (by simpa using hi)

theorem encodeBytes_getElem {v : Variant} {x : Word} {i : Nat} (hi : i < (encodeBytes v x).length) :
    (encodeBytes v x)[i] =
      mkByte (decide (i + 1 < (encodeBytes v x).length)) (lowGroup (remAfter v i x)) :=
  encodeLoop_getElem (chunk_remAfter_nine_last v x) hi

/-- A `WRITE_INTO` that succeeds wrote the encoding and returned its length. -/
theorem writeInto_ok {v : Variant} {base cap : Nat} {s t : State} (h : writeInto v base cap s = .next t)
    (hstat : t.stat = 0) :
    t.rlen.toNat = (encodeBytes v s.c.val).length ∧ t.mem = memWriteBytes s.mem base (encodeBytes v s.c.val) := by
  obtain ⟨-, -, -, -, ⟨-, rfl⟩ | ⟨-, rfl⟩⟩ := writeInto_next h
  · cases hstat
  · have hten := (encodeBytes_length v s.c.val).2
    refine ⟨?_, rfl⟩
    rw [returnLen_rlen, BitVec.toNat_ofNat, Nat.mod_eq_of_lt (by omega)]

/-- Settles O31: the byte at index `i` is the encoder's, whose group is the low bits of what is left after `i` groups. -/
theorem writtenBitsLittleEndian : Obligations.WrittenBitsLittleEndian := by
  intro v base cap s t h hstat i hi
  rw [exec_writeInstr] at h
  obtain ⟨hrlen, hmem⟩ := writeInto_ok h hstat
  rw [hrlen] at hi ⊢
  rw [hmem, memRead_memWriteBytes_inside _ _ _ _ hi, encodeBytes_getElem hi]
  refine ⟨fun k hk => ?_, by rw [mkByte_getLsbD_cont, decide_eq_true_iff]⟩
  rw [mkByte_getLsbD _ _ hk, lowGroup, BitVec.getLsbD_extractLsb', Nat.zero_add,
    remAfter_getLsbD v i _ (by omega), decide_eq_true hk, Bool.true_and]

end Sys2Proof.Machine
end

section
/-! SUPPORT. Family 30_encoding, the codes: the decoder and the encoder are inverse to each other up to unused ports, what the
fields of a byte are as numbers, and how an immediate is placed. -/

namespace Sys2Proof

open Machine

/-! ## The commands, by shape and variant -/

/-- The variant a command code names by its bit `S` (R76). -/
def cmdVariant (cmd : BitVec 3) : Variant := if cmdSigned cmd then .sleb else .uleb

/-- The one two-bit code that is none of the first three: the shape of `VALUE` (R76), the `UOP` of `SEXT` (R77). -/
theorem eq_three_of_ne {code : BitVec 2} (h0 : code ≠ 0b00#2) (h1 : code ≠ 0b01#2) (h2 : code ≠ 0b10#2) :
    code = 0b11#2 := by
  revert code
  decide

theorem decodeCmd_of_from {p : CmdPorts} (h : cmdShape p.cmd = 0b00#2) :
    decodeCmd p = fromInstr (cmdVariant p.cmd) p.operand := by
  cases hs : cmdSigned p.cmd <;> simp [decodeCmd, cmdVariant, fromInstr, h, hs]

theorem decodeCmd_of_write {p : CmdPorts} (h : cmdShape p.cmd = 0b01#2) :
    decodeCmd p = writeInstr (cmdVariant p.cmd) p.base p.cap := by
  cases hs : cmdSigned p.cmd <;> simp [decodeCmd, cmdVariant, writeInstr, h, hs]

theorem decodeCmd_of_read {p : CmdPorts} (h : cmdShape p.cmd = 0b10#2) :
    decodeCmd p = readInstr (cmdVariant p.cmd) p.base p.len := by
  cases hs : cmdSigned p.cmd <;> simp [decodeCmd, cmdVariant, readInstr, h, hs]

theorem decodeCmd_of_value {p : CmdPorts} (h : cmdShape p.cmd = 0b11#2) :
    decodeCmd p = valueInstr (cmdVariant p.cmd) := by
  cases hs : cmdSigned p.cmd <;> simp [decodeCmd, cmdVariant, valueInstr, h, hs]

/-- The code of a command: its shape, and the bit `S` of its variant (R76). -/
def cmdOf (shape : BitVec 2) (v : Variant) : BitVec 3 := shape ++ BitVec.ofBool (decide (v = .sleb))

@[simp] theorem cmdShape_cmdOf (shape : BitVec 2) (v : Variant) : cmdShape (cmdOf shape v) = shape := by
  cases v <;> revert shape <;> decide

@[simp] theorem cmdVariant_cmdOf (shape : BitVec 2) (v : Variant) : cmdVariant (cmdOf shape v) = v := by
  cases v <;> revert shape <;> decide

@[simp] theorem cmdOf_cmdShape_cmdVariant (cmd : BitVec 3) : cmdOf (cmdShape cmd) (cmdVariant cmd) = cmd := by
  revert cmd
  decide

theorem encode_fromInstr (v : Variant) (x : Word) :
    encode (fromInstr v x) = cmdCode (cmdOf 0b00#2 v) x 0 0 0 := by
  cases v <;> rfl

theorem encode_writeInstr (v : Variant) (base cap : Nat) :
    encode (writeInstr v base cap) = cmdCode (cmdOf 0b01#2 v) 0 base cap 0 := by
  cases v <;> rfl

theorem encode_readInstr (v : Variant) (base len : Nat) :
    encode (readInstr v base len) = cmdCode (cmdOf 0b10#2 v) 0 base 0 len := by
  cases v <;> rfl

theorem encode_valueInstr (v : Variant) : encode (valueInstr v) = cmdCode (cmdOf 0b11#2 v) 0 0 0 0 := by
  cases v <;> rfl

/-! ## Decoding an encoding -/

theorem decode_encode_from (v : Variant) (x : Word) : decode (encode (fromInstr v x)) = .ok (fromInstr v x) := by
  rw [encode_fromInstr, cmdCode, decode, decodeCmd_of_from (cmdShape_cmdOf _ v), cmdVariant_cmdOf]

theorem decode_encode_write (v : Variant) (base cap : Nat) :
    decode (encode (writeInstr v base cap)) = .ok (writeInstr v base cap) := by
  rw [encode_writeInstr, cmdCode, decode, decodeCmd_of_write (cmdShape_cmdOf _ v), cmdVariant_cmdOf]

theorem decode_encode_read (v : Variant) (base len : Nat) :
    decode (encode (readInstr v base len)) = .ok (readInstr v base len) := by
  rw [encode_readInstr, cmdCode, decode, decodeCmd_of_read (cmdShape_cmdOf _ v), cmdVariant_cmdOf]

theorem decode_encode_value (v : Variant) : decode (encode (valueInstr v)) = .ok (valueInstr v) := by
  rw [encode_valueInstr, cmdCode, decode, decodeCmd_of_value (cmdShape_cmdOf _ v), cmdVariant_cmdOf]

theorem decode_encode_accum {idx : Nat} (h : idx ≤ 9) (acc : Word) (b : Byte) :
    decode (encode (.accum acc idx b)) = .ok (.accum acc idx b) := by
  have hidx : (BitVec.ofNat 4 idx).toNat = idx := by
    rw [BitVec.toNat_ofNat, Nat.mod_eq_of_lt (by omega)]
  simp [encode, microCode, decode, decodeUnit, hidx, h]

/-- The count of `SEXT` travels as the index of the last byte, one less (note 10). -/
theorem decode_encode_sext {n : Nat} (hpos : 1 ≤ n) (hten : n ≤ 10) (acc : Word) (p : Group) :
    decode (encode (.sext acc n p)) = .ok (.sext acc n p) := by
  have hidx : (BitVec.ofNat 4 (n - 1)).toNat = n - 1 := by
    rw [BitVec.toNat_ofNat, Nat.mod_eq_of_lt (by omega)]
  have hin : ¬ 9 < n - 1 := by omega
  simp [encode, microCode, decode, decodeUnit, hidx, hin, Nat.sub_add_cancel hpos]

theorem decodeByte_mkByte (c : Bool) (p : Group) :
    decodeByte (mkByte c p) = if c then .byteContinuation p else .byteTerminator p := by
  rw [decodeByte, contOf_mkByte, payloadOf_mkByte]

/-- Settles O7: a command comes back by its shape and variant, a byte by its two fields, and a unit's inputs where the index they
count with is in range. -/
theorem decodeOfEncode : Obligations.DecodeOfEncode := by
  intro i hwf
  cases i with
  | uleb128From x => exact decode_encode_from .uleb x
  | sleb128From x => exact decode_encode_from .sleb x
  | uleb128WriteInto base cap => exact decode_encode_write .uleb base cap
  | sleb128WriteInto base cap => exact decode_encode_write .sleb base cap
  | uleb128ReadFrom base len => exact decode_encode_read .uleb base len
  | sleb128ReadFrom base len => exact decode_encode_read .sleb base len
  | uleb128Value => exact decode_encode_value .uleb
  | sleb128Value => exact decode_encode_value .sleb
  | chunkU rem => rfl
  | chunkS rem => rfl
  | accum acc idx b => exact decode_encode_accum (of_decide_eq_true hwf) acc b
  | sext acc n p =>
    obtain ⟨hpos, hten⟩ := of_decide_eq_true hwf
    exact decode_encode_sext hpos hten acc p
  | byteContinuation p => exact congrArg Except.ok (decodeByte_mkByte true p)
  | byteTerminator p => exact congrArg Except.ok (decodeByte_mkByte false p)

/-! ## Encoding what was decoded -/

/-- A command's encoding is its ports with those its shape does not use at 0 (R23). -/
theorem encode_decodeCmd (p : CmdPorts) : encode (decodeCmd p) = usedPorts (.cmd p) := by
  have hcmd := cmdOf_cmdShape_cmdVariant p.cmd
  simp only [usedPorts]
  split_ifs with h0 h1 h2
  · rw [decodeCmd_of_from h0, encode_fromInstr, ← h0, hcmd]
  · rw [decodeCmd_of_write h1, encode_writeInstr, ← h1, hcmd]
  · rw [decodeCmd_of_read h2, encode_readInstr, ← h2, hcmd]
  · have h3 := eq_three_of_ne h0 h1 h2
    rw [decodeCmd_of_value h3, encode_valueInstr, ← h3, hcmd]

theorem decodeCmd_wf (p : CmdPorts) : (decodeCmd p).wf = true := by
  obtain ⟨v, h⟩ | ⟨v, h⟩ | ⟨v, h⟩ | ⟨v, h⟩ := decodeCmd_cases p <;> rw [h] <;> cases v <;> rfl

/-- What a unit's inputs decode to is well formed, and its encoding is those inputs with the unused ones at 0. -/
theorem encode_of_decodeUnit {u : UnitPorts} {i : Instr} (h : decodeUnit u = .ok i) :
    i.wf = true ∧ encode i = usedPorts (.micro u) := by
  obtain ⟨uop, word, index, byte, payload⟩ := u
  unfold decodeUnit at h
  split_ifs at h with h0 h1 hin h2
  · obtain rfl := Except.ok.inj h
    obtain rfl := h0
    exact ⟨rfl, rfl⟩
  · obtain rfl := Except.ok.inj h
    obtain rfl := h1
    exact ⟨rfl, rfl⟩
  · obtain rfl := Except.ok.inj h
    obtain rfl := h2
    exact ⟨decide_eq_true (Nat.not_lt.1 hin), rfl⟩
  · obtain rfl := Except.ok.inj h
    obtain rfl := eq_three_of_ne h0 h1 h2
    exact ⟨decide_eq_true (by omega), rfl⟩

theorem encode_decodeByte (b : Byte) : encode (decodeByte b) = .byte b := by
  have hb := mkByte_contOf_payloadOf b
  unfold decodeByte
  split
  case isTrue hcont => rw [encode, ← hcont, hb]
  case isFalse hcont => rw [encode, ← Bool.eq_false_of_not_eq_true hcont, hb]

theorem decodeByte_wf (b : Byte) : (decodeByte b).wf = true := by
  unfold decodeByte
  split <;> rfl

/-- Settles O8, format by format. -/
theorem encodeOfDecode : Obligations.EncodeOfDecode := by
  intro c i h
  cases c with
  | cmd p =>
    obtain rfl := Except.ok.inj h
    exact ⟨decodeCmd_wf p, encode_decodeCmd p⟩
  | micro u => exact encode_of_decodeUnit h
  | byte b =>
    obtain rfl := Except.ok.inj h
    exact ⟨decodeByte_wf b, encode_decodeByte b⟩

/-! ## Samples, and the fields of a byte as numbers -/

/-- Settles O6: each code is a literal, so the decoder runs on it. -/
theorem sampleCodesDecode : Obligations.SampleCodesDecode :=
  ⟨rfl, rfl, rfl, rfl, rfl, rfl, rfl, rfl⟩

/-- The continuation bit is set exactly from 0x80 on (R61). -/
theorem contOf_eq_decide (b : Byte) : contOf b = decide (128 ≤ b.toNat) :=
  (BitVec.msb_eq_getLsbD_last b).symm.trans (BitVec.msb_eq_decide b)

theorem payloadOf_toNat (b : Byte) : (payloadOf b).toNat = b.toNat % 128 := by
  simp [payloadOf, BitVec.extractLsb'_toNat]

/-- Settles O9: the decoder of commands is total, and the continuation bit tells the two byte forms apart. -/
theorem everyCommandAndByteDecodes : Obligations.EveryCommandAndByteDecodes := by
  refine ⟨fun p => ⟨_, rfl⟩, fun b hb => ⟨payloadOf b, ?_, ?_⟩, fun b hb => ⟨payloadOf b, ?_, ?_⟩⟩
  · simp [decode, decodeByte, contOf_eq_decide, hb]
  · rw [payloadOf_toNat]
    omega
  · simp [decode, decodeByte, contOf_eq_decide, hb]
  · rw [payloadOf_toNat, Nat.mod_eq_of_lt hb]

/-! ## Immediates -/

theorem immOperand_uleb {imm : Int} (hlow : 0 ≤ imm) (hhigh : imm < 2 ^ 64) :
    ∃ x, immOperand .uleb imm = some x ∧ (x.toNat : Int) = imm := by
  refine ⟨BitVec.ofInt 64 imm, if_pos ⟨hlow, hhigh⟩, ?_⟩
  rw [BitVec.toNat_ofInt]
  omega

theorem immOperand_sleb {imm : Int} (hlow : -2 ^ 63 ≤ imm) (hhigh : imm < 2 ^ 63) :
    ∃ x, immOperand .sleb imm = some x ∧ x.toInt = imm :=
  ⟨BitVec.ofInt 64 imm, if_pos ⟨hlow, hhigh⟩, BitVec.toInt_ofInt_eq_self (by omega) hlow hhigh⟩

/-- Settles O10: the ranges of R78 are those of the two readings of a 64-bit vector. -/
theorem immediateOnOperand : Obligations.ImmediateOnOperand := by
  intro imm
  refine ⟨fun ⟨hlow, hhigh⟩ => immOperand_uleb hlow (by omega), fun hout => if_neg (by omega),
    fun ⟨hlow, hhigh⟩ => immOperand_sleb (by omega) (by omega), fun hout => if_neg (by omega)⟩

end Sys2Proof
end

section
/-! SUPPORT. Family 30_encoding, the lengths: `ULEN` and `SLEN` are least, and what it means in bits that a value fits into a
number of groups. -/

namespace Sys2Proof.Machine

/-! ## The least length -/

theorem leastLength_bounds (p : Nat → Bool) (fuel n : Nat) :
    n ≤ leastLength p fuel n ∧ leastLength p fuel n ≤ n + fuel := by
  induction fuel generalizing n with
  | zero => exact ⟨le_rfl, le_rfl⟩
  | succ fuel ih =>
    unfold leastLength
    split
    · omega
    · have := ih (n + 1)
      omega

/-- The length found has the property, where the last one tried has it. -/
theorem leastLength_holds {p : Nat → Bool} {fuel n : Nat} (h : p (n + fuel) = true) :
    p (leastLength p fuel n) = true := by
  induction fuel generalizing n with
  | zero => exact h
  | succ fuel ih =>
    unfold leastLength
    split
    · assumption
    · exact ih (by rwa [Nat.add_right_comm])

theorem leastLength_le {p : Nat → Bool} {k : Nat} (hk : p k = true) {fuel n : Nat} (hn : n ≤ k) :
    leastLength p fuel n ≤ k := by
  induction fuel generalizing n with
  | zero => exact hn
  | succ fuel ih =>
    unfold leastLength
    split
    · exact hn
    · refine ih (Nat.lt_of_le_of_ne hn ?_)
      rintro rfl
      contradiction

/-- `x` lies in the range of `n` groups, in the reading of the variant (R67, R68). -/
def inRange : Variant → Word → Nat → Bool
  | .uleb, x, n => decide (x.toNat < 2 ^ (7 * n))
  | .sleb, x, n => decide (-2 ^ (7 * n - 1) ≤ x.toInt ∧ x.toInt < 2 ^ (7 * n - 1))

theorem inRange_uleb {x : Word} {n : Nat} : inRange .uleb x n = true ↔ x.toNat < 2 ^ (7 * n) := decide_eq_true_iff

theorem inRange_sleb {x : Word} {n : Nat} :
    inRange .sleb x n = true ↔ -2 ^ (7 * n - 1) ≤ x.toInt ∧ x.toInt < 2 ^ (7 * n - 1) := decide_eq_true_iff

/-- Both lengths are one search, over the range of their variant. -/
theorem encLen_eq (v : Variant) (x : Word) : encLen v x = leastLength (inRange v x) 9 1 := by
  cases v <;> rfl

/-- Ten groups hold every value. -/
theorem inRange_ten (v : Variant) (x : Word) : inRange v x 10 = true := by
  cases v with
  | uleb =>
    rw [inRange_uleb]
    omega
  | sleb =>
    have hlow := BitVec.le_toInt x
    have hhigh := BitVec.toInt_lt (x := x)
    rw [inRange_sleb]
    omega

theorem encLen_bounds (v : Variant) (x : Word) : 1 ≤ encLen v x ∧ encLen v x ≤ 10 :=
  encLen_eq v x ▸ leastLength_bounds _ 9 1

theorem inRange_encLen (v : Variant) (x : Word) : inRange v x (encLen v x) = true :=
  encLen_eq v x ▸ leastLength_holds (inRange_ten v x)

theorem encLen_le {v : Variant} {x : Word} {n : Nat} (hn : 1 ≤ n) (h : inRange v x n = true) : encLen v x ≤ n :=
  encLen_eq v x ▸ leastLength_le h hn

/-- Settles O28: the facts about the search, at the range of each variant. -/
theorem lengthsAreLeast : Obligations.LengthsAreLeast := by
  intro x
  obtain ⟨hupos, huten⟩ := encLen_bounds .uleb x
  obtain ⟨hspos, hsten⟩ := encLen_bounds .sleb x
  exact ⟨⟨hupos, huten, inRange_uleb.1 (inRange_encLen .uleb x),
      fun n hn h => encLen_le (v := .uleb) hn (inRange_uleb.2 h)⟩,
    ⟨hspos, hsten, inRange_sleb.1 (inRange_encLen .sleb x),
      fun n hn hlow hhigh => encLen_le (v := .sleb) hn (inRange_sleb.2 ⟨hlow, hhigh⟩)⟩⟩

/-! ## The range of a length, in bits -/

/-- A value is below a power of two exactly when it has no bit from there on. -/
theorem toNat_lt_two_pow_iff {k : Nat} {x : Word} :
    x.toNat < 2 ^ k ↔ ∀ j, k ≤ j → j < 64 → x.getLsbD j = false := by
  refine ⟨fun h j hj _ => ?_, fun h => Nat.lt_pow_two_of_testBit _ fun j hj => ?_⟩
  · exact Nat.testBit_lt_two_pow (Nat.lt_of_lt_of_le h (Nat.pow_le_pow_right (by omega) hj))
  · obtain hlt | hge := Nat.lt_or_ge j 64
    · exact h j hj hlt
    · exact BitVec.getLsbD_of_ge x j hge

/-- A signed value is in the range of `k + 1` bits exactly when every bit from `k` on is its sign. -/
theorem toInt_range_iff {k : Nat} {x : Word} :
    (-2 ^ k ≤ x.toInt ∧ x.toInt < 2 ^ k) ↔ ∀ j, k ≤ j → j < 64 → x.getLsbD j = x.msb := by
  have hpow : ((2 ^ k : Nat) : Int) = 2 ^ k := by push_cast; rfl
  have hx := x.isLt
  cases hmsb : x.msb with
  | false =>
    rw [← toNat_lt_two_pow_iff, BitVec.toInt_eq_msb_cond, hmsb]
    simp only [Bool.false_eq_true, if_false]
    omega
  | true =>
    have hflip : (∀ j, k ≤ j → j < 64 → x.getLsbD j = true) ↔ (~~~x).toNat < 2 ^ k := by
      rw [toNat_lt_two_pow_iff]
      refine forall₃_congr fun j _ hj => ?_
      simp [hj]
    rw [hflip, BitVec.toNat_not, BitVec.toInt_eq_msb_cond, hmsb]
    simp only [if_true]
    omega

/-- A value fits into `n` groups exactly when its bits from `7n` on are what the decoder puts there: zeros, or in the signed
variant copies of the last group's top bit (R65). -/
theorem inRange_iff_bits {v : Variant} {n : Nat} {x : Word} (hn : 1 ≤ n) :
    inRange v x n = true ↔ ∀ j, 7 * n ≤ j → j < 64 → x.getLsbD j = (decide (v = .sleb) && x.getLsbD (7 * n - 1)) := by
  cases v with
  | uleb => exact inRange_uleb.trans toNat_lt_two_pow_iff
  | sleb =>
    refine inRange_sleb.trans (toInt_range_iff.trans ⟨fun h j hj hj64 => ?_, fun h j hj hj64 => ?_⟩)
    · simp [h j (by omega) hj64, h (7 * n - 1) (by omega) (by omega)]
    · have hlast : 7 * n ≤ 63 := by omega
      have hsign := h 63 hlast (by omega)
      rw [BitVec.msb_eq_getLsbD_last, hsign]
      obtain rfl | hge := Nat.eq_or_lt_of_le hj
      · rfl
      · exact h j (by omega) hj64

end Sys2Proof.Machine
end

section
/-! SUPPORT. Family 30_encoding, the decoder: when a decode succeeds, the bits of the value it gives, and its errors; then that a
decode takes needlessly long encodings and that the canonical one is the unique shortest. -/

namespace Sys2Proof.Machine

/-! ## The units in bits -/

theorem accumulate_getLsbD (acc : Word) (idx : Nat) (b : Byte) {j : Nat} (hj : j < 64) :
    (accumulate acc idx b).getLsbD j =
      (acc.getLsbD j || (decide (7 * idx ≤ j ∧ j < 7 * idx + 7) && b.getLsbD (j - 7 * idx))) := by
  rw [accumulate, BitVec.getLsbD_or, BitVec.getLsbD_shiftLeft, BitVec.getLsbD_setWidth]
  congr 1
  by_cases hlow : 7 * idx ≤ j
  · by_cases hhigh : j < 7 * idx + 7
    · rw [payloadOf_getLsbD b (by omega)]
      simp [hj, hlow, hhigh, Nat.not_lt.2 hlow, show j - 7 * idx < 64 by omega]
    · simp [hhigh, BitVec.getLsbD_of_ge (payloadOf b) (j - 7 * idx) (by omega)]
  · simp [hlow, Nat.not_le.1 hlow]

/-- Sign extension sets the bits from `7n` on where it applies (R90). -/
theorem finishAcc_getLsbD (v : Variant) (acc : Word) (n : Nat) (p : Group) {j : Nat} (hj : j < 64) :
    (finishAcc v acc n p).getLsbD j =
      (acc.getLsbD j || (decide (7 * n ≤ j) && (decide (v = .sleb) && p.getLsbD 6))) := by
  cases v with
  | uleb => simp [finishAcc]
  | sleb =>
    rw [finishAcc, extendSign, groupSign]
    split
    case isTrue happ =>
      obtain ⟨-, hsign⟩ : 7 * n < 64 ∧ p.getLsbD 6 = true := by simpa using happ
      have hin : j - 7 * n < 64 := by omega
      rw [BitVec.getLsbD_or, BitVec.getLsbD_shiftLeft, BitVec.getLsbD_allOnes, hsign]
      simp [hj, hin, ← decide_not]
    case isFalse happ =>
      have hsign : 7 * n < 64 → p.getLsbD 6 = false := by simpa using happ
      by_cases hn : 7 * n ≤ j
      · rw [hsign (by omega), Bool.and_false, Bool.and_false, Bool.or_false]
      · rw [decide_eq_false hn, Bool.false_and, Bool.or_false]

/-! ## A run of continuation bytes -/

/-- The accumulator after the `n` bytes at `base` (R89). -/
def accumulated (m : Memory) (base : Nat) : Nat → Word
  | 0 => 0
  | n + 1 => accumulate (accumulated m base n) n (memRead m (base + n))

theorem accumulated_getLsbD (m : Memory) (base n : Nat) {j : Nat} (hj : j < 64) :
    (accumulated m base n).getLsbD j =
      (decide (j < 7 * n) && (memRead m (base + j / 7)).getLsbD (j % 7)) := by
  induction n with
  | zero => simp [accumulated]
  | succ n ih =>
    rw [accumulated, accumulate_getLsbD _ _ _ hj, ih]
    by_cases hlow : 7 * n ≤ j
    · by_cases hhigh : j < 7 * n + 7
      · have hdiv : j / 7 = n := by omega
        have hmod : j - 7 * n = j % 7 := by omega
        simp [hlow, hhigh, hdiv, hmod, Nat.not_lt.2 hlow, Nat.mul_add]
      · simp [hhigh, Nat.not_lt.2 hlow, Nat.mul_add]
    · simp [hlow, Nat.not_le.1 hlow, show j < 7 * (n + 1) by omega]

/-- A terminator only is out of range, and at index 9 only. -/
theorem outOfRange_of_cont (v : Variant) (i : Nat) {b : Byte} (h : contOf b = true) : outOfRange v i b = false := by
  simp [outOfRange, h]

/-- A decode takes continuation bytes up to the end of its window or to the eleventh position. -/
theorem decodeWindow_of_continuations {v : Variant} {m : Memory} {base len n : Nat} (hlen : n ≤ len) (hten : n ≤ 10)
    (hcont : ∀ k, k < n → contOf (memRead m (base + k)) = true) :
    decodeWindow v m base len = decodeLoop v m base len (10 - n) n (accumulated m base n) := by
  induction n with
  | zero => rfl
  | succ n ih =>
    have hbyte := hcont n (Nat.lt_succ_self n)
    have hleft : 10 - n = (10 - (n + 1)) + 1 := by omega
    rw [ih (by omega) (by omega) fun k hk => hcont k (by omega), hleft, decodeLoop,
      if_neg (Nat.not_le.2 hlen), outOfRange_of_cont v n hbyte, hbyte]
    rfl

/-! ## When a decode succeeds, and what it gives -/

/-- The `n` bytes at `base` are a sequence a `READ_FROM` accepts (R62, R73, case valid). -/
structure Decodable (v : Variant) (m : Memory) (base n : Nat) : Prop where
  pos : 1 ≤ n
  le_ten : n ≤ 10
  cont : ∀ k, k < n → contOf (memRead m (base + k)) = decide (k + 1 < n)
  tenth : n = 10 → tenthOk v (payloadOf (memRead m (base + 9))) = true

/-- What the decoder makes of the `n` bytes at `base`. -/
def decodedValue (v : Variant) (m : Memory) (base n : Nat) : Word :=
  finishAcc v (accumulated m base n) n (payloadOf (memRead m (base + (n - 1))))

/-- The bits of a decoded value: the payload bits in order, then zeros or in the signed variant copies of the last payload's top
bit (R64, R65). -/
theorem decodedValue_getLsbD (v : Variant) (m : Memory) (base n : Nat) {j : Nat} (hj : j < 64) :
    (decodedValue v m base n).getLsbD j =
      if j < 7 * n then (memRead m (base + j / 7)).getLsbD (j % 7)
      else (decide (v = .sleb) && (memRead m (base + (n - 1))).getLsbD 6) := by
  rw [decodedValue, finishAcc_getLsbD _ _ _ _ hj, accumulated_getLsbD _ _ _ hj, payloadOf_getLsbD _ (by omega)]
  split
  case isTrue h => simp [h, Nat.not_le.2 h]
  case isFalse h => simp [h, Nat.not_lt.1 h]

theorem decodeWindow_of_decodable {v : Variant} {m : Memory} {base len n : Nat} (h : Decodable v m base n)
    (hlen : n ≤ len) : decodeWindow v m base len = .ok (decodedValue v m base n) n := by
  obtain ⟨hpos, hten, hcont, htenth⟩ := h
  obtain ⟨n, rfl⟩ := Nat.exists_eq_add_of_le' hpos
  have hterm : contOf (memRead m (base + n)) = false := by simp [hcont n (Nat.lt_succ_self n)]
  have hrange : outOfRange v n (memRead m (base + n)) = false := by
    by_cases hn : n = 9
    · subst hn
      simp [outOfRange, htenth rfl]
    · simp [outOfRange, hn]
  have hleft : 10 - n = (10 - (n + 1)) + 1 := by omega
  rw [decodeWindow_of_continuations (n := n) (by omega) (by omega) (fun k hk => by simp [hcont k (by omega), hk]),
    hleft, decodeLoop, if_neg (by omega), hrange, hterm]
  rfl

/-- A decode that succeeds from index `i` consumed continuation bytes and one terminator in range. -/
theorem decodeLoop_ok_bytes {v : Variant} {m : Memory} {base len left i n : Nat} {acc x : Word}
    (h : decodeLoop v m base len left i acc = .ok x n) :
    (∀ k, i ≤ k → k < n → contOf (memRead m (base + k)) = decide (k + 1 < n)) ∧
      outOfRange v (n - 1) (memRead m (base + (n - 1))) = false := by
  induction left generalizing i acc with
  | zero =>
    unfold decodeLoop at h
    split at h <;> cases h
  | succ left ih =>
    unfold decodeLoop at h
    split_ifs at h with hlen hrange hcont
    · obtain ⟨hbytes, hlast⟩ := ih h
      have hmore := (decodeLoop_ok_bounds h).1
      refine ⟨fun k hik hkn => ?_, hlast⟩
      obtain rfl | hlt := Nat.eq_or_lt_of_le hik
      · simp [hcont, hmore]
      · exact hbytes k hlt hkn
    · obtain ⟨-, rfl⟩ := Decoded.ok.inj h
      refine ⟨fun k hik hkn => ?_, by simpa using hrange⟩
      obtain rfl : k = i := by omega
      simpa using hcont

/-- A decode succeeds on the sequences it accepts and on no others (R73). -/
theorem decodeWindow_eq_ok_iff {v : Variant} {m : Memory} {base len n : Nat} {x : Word} :
    decodeWindow v m base len = .ok x n ↔ n ≤ len ∧ Decodable v m base n ∧ x = decodedValue v m base n := by
  refine ⟨fun h => ?_, fun ⟨hlen, hdec, hx⟩ => hx ▸ decodeWindow_of_decodable hdec hlen⟩
  obtain ⟨hpos, hten, hlen⟩ := decodeLoop_ok_bounds h
  obtain ⟨hbytes, hrange⟩ := decodeLoop_ok_bytes h
  have hdec : Decodable v m base n := by
    refine ⟨hpos, by omega, fun k hk => hbytes k k.zero_le hk, ?_⟩
    rintro rfl
    simpa [outOfRange, hbytes 9 (by omega) (by omega)] using hrange
  rw [decodeWindow_of_decodable hdec hlen] at h
  exact ⟨hlen, hdec, (Decoded.ok.inj h).1.symm⟩

/-! ## The command -/

/-- A `READ_FROM` of a decodable slice constructs the codec and returns the number of bytes (R104, R124). -/
theorem readFrom_of_decodable {v : Variant} {base len n : Nat} {s : State} (hidle : s.phase = .idle)
    (hfits : base + len ≤ 2 ^ s.aw) (hlen : n ≤ len) (hdec : Decodable v s.mem base n) :
    readFrom v base len s =
      .next (returnLen (BitVec.ofNat 4 n) (holdCodec v (decodedValue v s.mem base n) (forgetDecoder v s))) := by
  refine guarded_eq_next.2 ⟨readGuard_eq_none.2 ⟨hidle, hfits⟩, ?_⟩
  rw [readEffect, decodeWindow_of_decodable hdec hlen]

/-- A `READ_FROM` whose decode fails raises the error (R146). -/
theorem readFrom_of_err {v : Variant} {base len : Nat} {s : State} {e : ErrorKind} (hidle : s.phase = .idle)
    (hfits : base + len ≤ 2 ^ s.aw) (herr : decodeWindow v s.mem base len = .err e) :
    readFrom v base len s = .next (raiseError e (forgetDecoder v s)) := by
  refine guarded_eq_next.2 ⟨readGuard_eq_none.2 ⟨hidle, hfits⟩, ?_⟩
  rw [readEffect, herr]

/-- A `READ_FROM` that succeeds read a decodable slice, and its codec is the value of it. -/
theorem readFrom_ok_decodable {v : Variant} {base len : Nat} {s t : State} (h : readFrom v base len s = .next t)
    (hstat : t.stat = 0) :
    s.phase = .idle ∧ t.rlen.toNat ≤ len ∧ Decodable v s.mem base t.rlen.toNat ∧
      t.c = { vld := true, tag := v, val := decodedValue v s.mem base t.rlen.toNat } := by
  obtain ⟨x, hok⟩ := readFrom_ok h hstat
  obtain ⟨hlen, hdec, -⟩ := decodeWindow_eq_ok_iff.1 hok
  obtain ⟨hidle, hfits, -⟩ := readFrom_next h
  rw [readFrom_of_decodable hidle hfits hlen hdec] at h
  exact ⟨hidle, hlen, hdec, congrArg State.c (Host.Outcome.next.inj h).symm⟩

/-! ## The errors -/

theorem decodeWindow_truncated {v : Variant} {m : Memory} {base len : Nat} (hlen : len ≤ 10)
    (hcont : ∀ k, k < len → contOf (memRead m (base + k)) = true) :
    decodeWindow v m base len = .err .unexpectedEndOfBuffer := by
  rw [decodeWindow_of_continuations le_rfl hlen hcont]
  cases 10 - len <;> exact if_pos le_rfl

theorem decodeWindow_overlong {v : Variant} {m : Memory} {base len : Nat} (hlen : 11 ≤ len)
    (hcont : ∀ k, k < 10 → contOf (memRead m (base + k)) = true) :
    decodeWindow v m base len = .err .overflow := by
  rw [decodeWindow_of_continuations (n := 10) (by omega) le_rfl hcont]
  exact if_neg (by omega)

theorem decodeWindow_outOfRange {v : Variant} {m : Memory} {base len : Nat} (hlen : 10 ≤ len)
    (hcont : ∀ k, k < 9 → contOf (memRead m (base + k)) = true)
    (hrange : outOfRange v 9 (memRead m (base + 9)) = true) :
    decodeWindow v m base len = .err .overflow := by
  rw [decodeWindow_of_continuations (n := 9) (by omega) (by omega) hcont, decodeLoop, if_neg (by omega), hrange]
  rfl

/-- The terminators that are out of range at index 9 (R73). -/
theorem outOfRange_nine_iff {v : Variant} {b : Byte} :
    outOfRange v 9 b = true ↔ b.toNat < 128 ∧
      (v = .uleb ∧ 2 ≤ b.toNat ∨ v = .sleb ∧ b.toNat ≠ 0 ∧ b.toNat ≠ 127) := by
  cases v <;> revert b <;> decide

/-- Settles O36: each case is one way for the run of continuation bytes to end. -/
theorem readErrorsClassified : Obligations.ReadErrorsClassified := by
  intro v base len s hidle hfits
  have hcont {n : Nat} (h : ∀ k, k < n → 128 ≤ (memRead s.mem (base + k)).toNat) (k : Nat) (hk : k < n) :
      contOf (memRead s.mem (base + k)) = true := by
    rw [contOf_eq_decide, decide_eq_true (h k hk)]
  have hraise {e : ErrorKind} (herr : decodeWindow v s.mem base len = .err e) :
      ∃ t, exec (readInstr v base len) s = .next t ∧ t.stat = statCode e ∧
        t.c = s.c ∧ t.mem = s.mem ∧ t.rval = s.rval ∧ t.rem = s.rem ∧ t.phase = .idle ∧ hostSideSame s t := by
    rw [exec_readInstr, readFrom_of_err hidle hfits herr]
    exact ⟨_, rfl, rfl, rfl, rfl, rfl, rfl, rfl, rfl, rfl, rfl, rfl, rfl, rfl⟩
  refine ⟨fun hlen h => hraise (decodeWindow_truncated hlen (hcont h)),
    fun hlen h => hraise (decodeWindow_overlong hlen (hcont h)), fun hlen h hterm hpay => ?_⟩
  exact hraise (decodeWindow_outOfRange hlen (hcont h) (outOfRange_nine_iff.2 ⟨hterm, hpay⟩))

/-! ## Needlessly long sequences -/

/-- The byte that adds one group to a sequence without changing its value (R72): zeros, or sign bits in the signed variant. -/
def padByte (v : Variant) (sign : Bool) : Byte := if v = .sleb ∧ sign = true then 0x7F#8 else 0x00#8

theorem padByte_eq (v : Variant) (sign : Bool) :
    padByte v sign = mkByte false (BitVec.fill 7 (decide (v = .sleb) && sign)) := by
  cases v <;> revert sign <;> decide

theorem padByte_getLsbD (v : Variant) (sign : Bool) {k : Nat} (hk : k < 7) :
    (padByte v sign).getLsbD k = (decide (v = .sleb) && sign) := by
  rw [padByte_eq, mkByte_getLsbD _ _ hk, BitVec.getLsbD_fill, decide_eq_true hk, Bool.and_true]

theorem tenthOk_padByte (v : Variant) (sign : Bool) : tenthOk v (payloadOf (padByte v sign)) = true := by
  cases v <;> revert sign <;> decide

theorem or_contBit (b : Byte) : b ||| 0x80#8 = mkByte true (payloadOf b) := by
  revert b
  decide

/-- `m'` holds the `n` bytes `m` holds at `base`, the last made a continuation byte, and one more group (R72). -/
structure Lengthens (v : Variant) (m m' : Memory) (base n : Nat) : Prop where
  same : ∀ k, k + 1 < n → memRead m' (base + k) = memRead m (base + k)
  last : memRead m' (base + (n - 1)) = memRead m (base + (n - 1)) ||| 0x80#8
  pad : memRead m' (base + n) = padByte v ((memRead m (base + (n - 1))).getLsbD 6)

section
variable {v : Variant} {m m' : Memory} {base n : Nat}

theorem Lengthens.byte_eq (h : Lengthens v m m' base n) (hdec : Decodable v m base n) {k : Nat} (hk : k < n) :
    memRead m' (base + k) = mkByte true (payloadOf (memRead m (base + k))) := by
  by_cases hlast : k + 1 < n
  · have hcont : contOf (memRead m (base + k)) = true := by rw [hdec.cont k hk, decide_eq_true hlast]
    rw [h.same k hlast, ← hcont, mkByte_contOf_payloadOf]
  · obtain rfl : k = n - 1 := by omega
    rw [h.last, or_contBit]

theorem Lengthens.decodable (h : Lengthens v m m' base n) (hdec : Decodable v m base n) (hn : n ≤ 9) :
    Decodable v m' base (n + 1) := by
  refine ⟨by omega, by omega, fun k hk => ?_, ?_⟩
  · obtain hlt | rfl := Nat.lt_succ_iff_lt_or_eq.1 hk
    · simp [h.byte_eq hdec hlt, hlt]
    · simp [h.pad, padByte_eq]
  · intro hten
    obtain rfl : n = 9 := by omega
    rw [h.pad, tenthOk_padByte]

theorem Lengthens.decodedValue_eq (h : Lengthens v m m' base n) (hdec : Decodable v m base n) :
    decodedValue v m' base (n + 1) = decodedValue v m base n := by
  have hpad {k : Nat} (hk : k < 7) : (memRead m' (base + n)).getLsbD k =
      (decide (v = .sleb) && (memRead m (base + (n - 1))).getLsbD 6) := by
    rw [h.pad, padByte_getLsbD _ _ hk]
  refine BitVec.eq_of_getLsbD_eq fun j hj => ?_
  rw [decodedValue_getLsbD _ _ _ _ hj, decodedValue_getLsbD _ _ _ _ hj]
  by_cases hold : j < 7 * n
  · rw [if_pos (by omega), if_pos hold, h.byte_eq hdec (by omega), mkByte_getLsbD _ _ (by omega),
      payloadOf_getLsbD _ (by omega)]
  · rw [if_neg hold, Nat.add_sub_cancel, hpad (by omega), ← Bool.and_assoc, Bool.and_self]
    split
    · rw [show j / 7 = n by omega, hpad (by omega)]
    · rfl

end

/-- Settles O39: the longer sequence is decodable too, and its value has the same bits. -/
theorem nonCanonicalAccepted : Obligations.NonCanonicalAccepted := by
  intro v base len len' n s t m h hstat hrlen hn hlen hfits hsame hlast hpad
  rw [exec_readInstr] at h ⊢
  obtain ⟨hidle, -, hdec, hc⟩ := readFrom_ok_decodable h hstat
  rw [hrlen] at hdec hc
  have hlong : Lengthens v s.mem m base n := ⟨hsame, hlast, hpad⟩
  have hten := hlong.decodable hdec hn
  have hread := readFrom_of_decodable (s := withMem m s) hidle hfits hlen hten
  refine ⟨_, hread, rfl, ?_, ?_⟩
  · rw [returnLen_c, holdCodec_c, hc, withMem_mem, hlong.decodedValue_eq hdec]
  · rw [returnLen_rlen, BitVec.toNat_ofNat, Nat.mod_eq_of_lt (by omega)]

/-! ## The canonical encoding -/

@[simp] theorem canonical_length (v : Variant) (x : Word) : (canonical v x).length = encLen v x := by
  simp [canonical]

theorem canonical_getD {v : Variant} {x : Word} {i : Nat} (hi : i < encLen v x) :
    (canonical v x).getD i 0 = mkByte (decide (i + 1 < encLen v x)) ((wide70 v x).extractLsb' (7 * i) 7) := by
  simp [canonical, hi]

/-- The 70 bits of ten groups: the value's 64, then zeros or copies of the sign (R69, R70). -/
theorem wide70_getLsbD (v : Variant) (x : Word) {j : Nat} (hj : j < 70) :
    (wide70 v x).getLsbD j = if j < 64 then x.getLsbD j else (decide (v = .sleb) && x.getLsbD 63) := by
  cases v with
  | uleb =>
    rw [wide70, BitVec.getLsbD_setWidth, decide_eq_true hj, Bool.true_and]
    split
    · rfl
    · exact BitVec.getLsbD_of_ge x j (by omega)
  | sleb =>
    rw [wide70, BitVec.getLsbD_signExtend, decide_eq_true hj, BitVec.msb_eq_getLsbD_last]
    simp

/-- A value's bits, read off its canonical encoding as the decoder reads them off memory. -/
theorem getLsbD_of_canonical (v : Variant) (x : Word) {j : Nat} (hj : j < 64) :
    x.getLsbD j =
      if j < 7 * (canonical v x).length then ((canonical v x).getD (j / 7) 0).getLsbD (j % 7)
      else (decide (v = .sleb) && ((canonical v x).getD ((canonical v x).length - 1) 0).getLsbD 6) := by
  have hpos := (encLen_bounds v x).1
  have hbyte {i k : Nat} (hi : i < encLen v x) (hk : k < 7) (hik : 7 * i + k < 64) :
      ((canonical v x).getD i 0).getLsbD k = x.getLsbD (7 * i + k) := by
    rw [canonical_getD hi, mkByte_getLsbD _ _ hk, BitVec.getLsbD_extractLsb', wide70_getLsbD _ _ (by omega), if_pos hik,
      decide_eq_true hk, Bool.true_and]
  rw [canonical_length]
  split
  case isTrue h => rw [hbyte (by omega) (by omega) (by omega), Nat.div_add_mod]
  case isFalse h =>
    rw [hbyte (by omega) (by omega) (by omega), (inRange_iff_bits hpos).1 (inRange_encLen v x) j (by omega) hj,
      show 7 * (encLen v x - 1) + 6 = 7 * encLen v x - 1 by omega]

theorem canonical_injective (v : Variant) {x y : Word} (h : canonical v x = canonical v y) : x = y :=
  BitVec.eq_of_getLsbD_eq fun j hj => by rw [getLsbD_of_canonical v x hj, getLsbD_of_canonical v y hj, h]

/-- A decoded value lies in the range of the bytes it was decoded from. -/
theorem inRange_decodedValue {v : Variant} {m : Memory} {base n : Nat} (hn : 1 ≤ n) :
    inRange v (decodedValue v m base n) n = true := by
  refine (inRange_iff_bits hn).2 fun j hj hj64 => ?_
  rw [decodedValue_getLsbD _ _ _ _ hj64, decodedValue_getLsbD _ _ _ _ (by omega), if_neg (Nat.not_lt.2 hj),
    if_pos (by omega), show (7 * n - 1) / 7 = n - 1 by omega, show (7 * n - 1) % 7 = 6 by omega]

/-- In a tenth payload in range every bit from 1 on is what bit 63 of the value extends to (R73). -/
theorem tenthOk_getLsbD {v : Variant} {p : Group} (h : tenthOk v p = true) {k : Nat} (hk : k < 7) (hpos : 1 ≤ k) :
    p.getLsbD k = (decide (v = .sleb) && p.getLsbD 0) := by
  revert k p
  cases v <;> decide

/-- The bytes of a decodable slice are its value's groups, the continuation bit clear on the last. -/
theorem Decodable.byte_eq {v : Variant} {m : Memory} {base n : Nat} (h : Decodable v m base n) {i : Nat} (hi : i < n) :
    memRead m (base + i) =
      mkByte (decide (i + 1 < n)) ((wide70 v (decodedValue v m base n)).extractLsb' (7 * i) 7) := by
  have hten := h.le_ten
  have hgroup : payloadOf (memRead m (base + i)) = (wide70 v (decodedValue v m base n)).extractLsb' (7 * i) 7 := by
    refine BitVec.eq_of_getLsbD_eq fun k hk => ?_
    rw [BitVec.getLsbD_extractLsb', decide_eq_true hk, Bool.true_and, wide70_getLsbD _ _ (by omega)]
    split
    case isTrue hlow =>
      rw [decodedValue_getLsbD _ _ _ _ hlow, if_pos (by omega), show (7 * i + k) / 7 = i by omega,
        show (7 * i + k) % 7 = k by omega, payloadOf_getLsbD _ hk]
    case isFalse hhigh =>
      obtain rfl : i = 9 := by omega
      obtain rfl : n = 10 := by omega
      rw [decodedValue_getLsbD _ _ _ _ (by omega), if_pos (by omega), tenthOk_getLsbD (h.tenth rfl) hk (by omega),
        payloadOf_getLsbD _ (by omega)]
  rw [← h.cont i hi, ← hgroup, mkByte_contOf_payloadOf]

theorem Decodable.memBytes_eq_canonical {v : Variant} {m : Memory} {base n : Nat} (h : Decodable v m base n)
    (hn : n = encLen v (decodedValue v m base n)) : memBytes m base n = canonical v (decodedValue v m base n) := by
  rw [memBytes, canonical, ← hn]
  exact List.map_congr_left fun i hi => h.byte_eq (List.mem_range.1 hi)

/-- Settles O40: the value's bits are read off its encoding, and a decoded value is in the range of the bytes read. -/
theorem canonicalIsUniqueShortest : Obligations.CanonicalIsUniqueShortest := by
  refine ⟨fun v x y => canonical_injective v, fun v base len s t h hstat => ?_⟩
  rw [exec_readInstr] at h
  obtain ⟨-, -, hdec, hc⟩ := readFrom_ok_decodable h hstat
  rw [hc]
  exact ⟨encLen_le hdec.pos (inRange_decodedValue hdec.pos), hdec.memBytes_eq_canonical⟩

end Sys2Proof.Machine
end

section
/-! SUPPORT. Family 40_chunker, the arithmetic: the chunk steps and the accumulator in numbers, what is left of a value in an
encode and what a decode has gathered. -/

namespace Sys2Proof.Machine

/-! ## The chunk steps in numbers -/

theorem mkByte_toNat (c : Bool) (p : Group) : (mkByte c p).toNat = p.toNat + (if c then 128 else 0) := by
  cases c <;> revert p <;> decide

theorem lowGroup_toNat (x : Word) : (lowGroup x).toNat = x.toNat % 128 := by
  simp [lowGroup, BitVec.extractLsb'_toNat]

theorem groupSign_eq_decide (p : Group) : groupSign p = decide (64 ≤ p.toNat) :=
  (BitVec.msb_eq_getLsbD_last p).symm.trans (BitVec.msb_eq_decide p)

theorem lsr7_toNat (x : Word) : (lsr7 x).toNat = x.toNat / 128 := by
  rw [lsr7_eq, BitVec.toNat_ushiftRight, Nat.shiftRight_eq_div_pow]

theorem asr7_toInt (x : Word) : (asr7 x).toInt = x.toInt / 128 := by
  rw [asr7_eq, BitVec.toInt_sshiftRight, Int.shiftRight_eq_div_pow]
  rfl

/-- `CHUNK.U` ends exactly on a value of one group (R86). -/
theorem chunkUnsigned_last_iff (x : Word) : (chunkUnsigned x).last = true ↔ x.toNat < 128 := by
  have hzero : lsr7 x = 0 ↔ (lsr7 x).toNat = 0 := (BitVec.toNat_inj (y := 0)).symm
  simp only [chunkUnsigned, beq_iff_eq, hzero, lsr7_toNat]
  omega

/-- `CHUNK.S` ends exactly where what is left is the sign of the group just emitted (R87). -/
theorem chunkSigned_last_iff (x : Word) :
    (chunkSigned x).last = true ↔
      ((asr7 x).toInt = 0 ∧ groupSign (lowGroup x) = false) ∨ ((asr7 x).toInt = -1 ∧ groupSign (lowGroup x) = true) := by
  have hzero : asr7 x = 0 ↔ (asr7 x).toInt = 0 := (BitVec.toInt_inj (y := 0)).symm
  have hones : asr7 x = ones64 ↔ (asr7 x).toInt = -1 := (BitVec.toInt_inj (y := ones64)).symm
  simp [chunkSigned, ← hzero, ← hones]

/-- `CHUNK.S` ends exactly on a value of one signed group, -64 to 63 (R87). -/
theorem chunkSigned_last_iff_range (x : Word) :
    (chunkSigned x).last = true ↔ -64 ≤ x.toInt ∧ x.toInt < 64 := by
  have hint := BitVec.toInt_eq_toNat_cond x
  rw [chunkSigned_last_iff, asr7_toInt, groupSign_eq_decide, lowGroup_toNat, decide_eq_false_iff_not, decide_eq_true_iff]
  split at hint <;> omega

/-- A chunk step ends exactly on a value that lies in the range of one group. -/
theorem chunk_last_iff (v : Variant) (x : Word) : (chunk v x).last = true ↔ inRange v x 1 = true := by
  cases v with
  | uleb => exact (chunkUnsigned_last_iff x).trans (inRange_uleb (n := 1)).symm
  | sleb => exact (chunkSigned_last_iff_range x).trans (inRange_sleb (n := 1)).symm

/-- The byte of a chunk step is its group, 128 more where the encoding goes on (R85). -/
theorem chunk_byte_toNat (v : Variant) (x : Word) :
    (chunk v x).byte.toNat = x.toNat % 128 + (if (chunk v x).last then 0 else 128) := by
  rw [chunk_byte, mkByte_toNat, lowGroup_toNat]
  cases (chunk v x).last <;> rfl

/-! ## The value that is left in an encode (R91) -/

theorem chunk_rem_remAfter (v : Variant) (k : Nat) (x : Word) :
    (chunk v (remAfter v k x)).rem = remAfter v (k + 1) x := by
  cases v with
  | uleb => rw [remAfter, remAfter, Nat.mul_succ, BitVec.shiftRight_add, ← lsr7_eq]; rfl
  | sleb => rw [remAfter, remAfter, Nat.mul_succ, BitVec.sshiftRight_add, ← asr7_eq]; rfl

theorem inRange_remAfter (v : Variant) (k : Nat) (x : Word) :
    inRange v (remAfter v k x) 1 = true ↔ inRange v x (k + 1) = true := by
  cases v with
  | uleb =>
    rw [inRange_uleb, inRange_uleb, remAfter, BitVec.toNat_ushiftRight, Nat.shiftRight_eq_div_pow,
      Nat.div_lt_iff_lt_mul (Nat.two_pow_pos _), ← Nat.pow_add, Nat.mul_add, Nat.add_comm]
  | sleb =>
    have hpos : (0 : Int) < 2 ^ (7 * k) := by positivity
    have hpow : (2 : Int) ^ (7 * (k + 1) - 1) = 2 ^ 6 * 2 ^ (7 * k) := by
      rw [← pow_add]
      congr 1
      omega
    rw [inRange_sleb, inRange_sleb, remAfter, BitVec.toInt_sshiftRight, Int.shiftRight_eq_div_pow, hpow, ← neg_mul]
    push_cast
    exact and_congr (Int.le_ediv_iff_mul_le hpos) (Int.ediv_lt_iff_lt_mul hpos)

/-- The chunk step at index `k`, before the end of the encoding, is the last exactly at the last index. -/
theorem chunk_remAfter_last_iff {v : Variant} {k : Nat} {x : Word} (hk : k < encLen v x) :
    (chunk v (remAfter v k x)).last = true ↔ k + 1 = encLen v x := by
  rw [chunk_last_iff, inRange_remAfter]
  refine ⟨fun h => ?_, fun h => h ▸ inRange_encLen v x⟩
  have := encLen_le (Nat.succ_pos k) h
  omega

theorem lowGroup_remAfter (v : Variant) {k : Nat} (x : Word) (hk : k < 10) :
    lowGroup (remAfter v k x) = (wide70 v x).extractLsb' (7 * k) 7 := by
  refine BitVec.eq_of_getLsbD_eq fun j hj => ?_
  rw [lowGroup, BitVec.getLsbD_extractLsb', BitVec.getLsbD_extractLsb', Nat.zero_add, remAfter_getLsbD _ _ _ (by omega),
    wide70_getLsbD _ _ (by omega)]

/-- The chunk step at index `k` emits byte `k` of the canonical encoding. -/
theorem chunk_remAfter_byte {v : Variant} {k : Nat} {x : Word} (hk : k < encLen v x) :
    (chunk v (remAfter v k x)).byte = (canonical v x).getD k 0 := by
  have hten := (encLen_bounds v x).2
  have hlast : (!(chunk v (remAfter v k x)).last) = decide (k + 1 < encLen v x) := by
    rw [Bool.eq_iff_iff, Bool.not_eq_true', ← Bool.not_eq_true, chunk_remAfter_last_iff hk, decide_eq_true_iff]
    omega
  rw [canonical_getD hk, chunk_byte, hlast, lowGroup_remAfter v x (by omega)]

/-! ## What is accumulated in a decode (R93) -/

/-- Where the accumulator has zeros from the group's place on, accumulating is adding (R89). -/
theorem accumulate_toNat {acc : Word} {idx : Nat} (b : Byte) (h : acc.toNat < 2 ^ (7 * idx)) :
    (accumulate acc idx b).toNat = (acc.toNat + b.toNat % 128 * 2 ^ (7 * idx)) % 2 ^ 64 := by
  have hdisjoint : acc &&& ((payloadOf b).setWidth 64 <<< (7 * idx)) = 0#64 := by
    refine BitVec.eq_of_getLsbD_eq fun j hj => ?_
    rw [BitVec.getLsbD_and, BitVec.getLsbD_shiftLeft, BitVec.getLsbD_zero]
    by_cases hlow : j < 7 * idx
    · simp [hlow]
    · simp [toNat_lt_two_pow_iff.1 h j (by omega) hj]
  have hpayload : (payloadOf b).toNat % 2 ^ 64 = b.toNat % 128 := by
    rw [payloadOf_toNat]
    omega
  rw [accumulate, ← BitVec.add_eq_or_of_and_eq_zero _ _ hdisjoint, BitVec.toNat_add, BitVec.toNat_shiftLeft,
    BitVec.toNat_setWidth, hpayload, Nat.shiftLeft_eq, Nat.add_mod_mod]

theorem memBytes_succ (m : Memory) (base n : Nat) :
    memBytes m base (n + 1) = memBytes m base n ++ [memRead m (base + n)] := by
  simp [memBytes, List.range_succ]

@[simp] theorem memBytes_length (m : Memory) (base n : Nat) : (memBytes m base n).length = n := by
  simp [memBytes]

theorem memBytes_congr {m m' : Memory} {base n : Nat}
    (h : ∀ k, k < n → memRead m' (base + k) = memRead m (base + k)) : memBytes m' base n = memBytes m base n :=
  List.map_congr_left fun k hk => h k (List.mem_range.1 hk)

theorem wideValue_append_singleton (l : List Byte) (b : Byte) :
    wideValue (l ++ [b]) = wideValue l + b.toNat % 128 * 2 ^ (7 * l.length) := by
  induction l with
  | nil => simp [wideValue, payloadOf_toNat]
  | cons c l ih =>
    have hpow : 2 ^ (7 * (l.length + 1)) = 128 * 2 ^ (7 * l.length) := by
      rw [Nat.mul_succ, Nat.pow_add, Nat.mul_comm]
    rw [List.cons_append, wideValue, wideValue, ih, List.length_cons, hpow]
    ring

/-- An accumulator that holds the groups of `n` bytes holds those of `n + 1` after the next byte. -/
theorem accumulate_wideValue {acc : Word} {m : Memory} {base n : Nat}
    (hacc : acc = BitVec.ofNat 64 (wideValue (memBytes m base n))) (hsmall : acc.toNat < 2 ^ (7 * n)) :
    accumulate acc n (memRead m (base + n)) = BitVec.ofNat 64 (wideValue (memBytes m base (n + 1))) := by
  have hval : acc.toNat = wideValue (memBytes m base n) % 2 ^ 64 := by rw [hacc, BitVec.toNat_ofNat]
  refine BitVec.eq_of_toNat_eq ?_
  rw [accumulate_toNat _ hsmall, hval, BitVec.toNat_ofNat, memBytes_succ, wideValue_append_singleton, memBytes_length,
    Nat.mod_add_mod]

/-- Accumulating a group leaves zeros above it. -/
theorem accumulate_lt {acc : Word} {n : Nat} (b : Byte) (h : acc.toNat < 2 ^ (7 * n)) :
    (accumulate acc n b).toNat < 2 ^ (7 * (n + 1)) := by
  refine toNat_lt_two_pow_iff.2 fun j hj hj64 => ?_
  rw [accumulate_getLsbD _ _ _ hj64, toNat_lt_two_pow_iff.1 h j (by omega) hj64]
  simp [show ¬ j < 7 * n + 7 by omega]

theorem idx_succ_toNat {i : BitVec 4} (h : i.toNat < 10) : (i + 1).toNat = i.toNat + 1 := by
  rw [BitVec.toNat_add]
  exact Nat.mod_eq_of_lt (by simp; omega)

end Sys2Proof.Machine
end

section
/-! SUPPORT. Family 40_chunker, the invariant: every move of the host keeps it. -/

namespace Sys2Proof.Machine

/-! ## The invariant

An idle block has only its memory to keep in form; the other moves are an acceptance, which starts a progress, a micro-step, which
carries it on or ends it, and the host's write, which keeps off the window. -/

/-- The memory is in its canonical form and inside the address space. -/
def memInForm (s : State) : Prop := s.mem.wf ∧ memInSpace s

theorem Inv.memInForm {s : State} (h : Inv s) : memInForm s := ⟨h.1, h.2.1⟩

theorem Inv.encProgress {s : State} (h : Inv s) (henc : s.phase = .enc) : encProgress s := h.2.2.1 henc

theorem Inv.decProgress {s : State} (h : Inv s) (hdec : s.phase = .dec) : decProgress s := h.2.2.2 hdec

theorem inv_of_idle {s : State} (hform : memInForm s) (hidle : s.phase = .idle) : Inv s :=
  ⟨hform.1, hform.2, fun henc => by simp [hidle] at henc, fun hdec => by simp [hidle] at hdec⟩

theorem inv_of_encProgress {s : State} (hform : memInForm s) (hphase : s.phase = .enc) (h : encProgress s) : Inv s :=
  ⟨hform.1, hform.2, fun _ => h, fun hdec => by simp [hphase] at hdec⟩

theorem inv_of_decProgress {s : State} (hform : memInForm s) (hphase : s.phase = .dec) (h : decProgress s) : Inv s :=
  ⟨hform.1, hform.2, fun henc => by simp [hphase] at henc, fun _ => h⟩

theorem memInForm_memWrite {s : State} (hform : memInForm s) {a : Nat} (ha : a < 2 ^ s.aw) (b : Byte) :
    memInForm { s with mem := memWrite s.mem a b } :=
  ⟨memWrite_wf a b hform.1, memWrite_below ha hform.2⟩

/-! ### Commands at the transaction level -/

theorem construct_keeps_inv {v : Variant} {x : Word} {s t : State} (hinv : Inv s) (h : construct v x s = .next t) :
    Inv t := by
  obtain ⟨-, rfl⟩ := construct_next h
  exact inv_of_idle hinv.memInForm rfl

theorem extractValue_keeps_inv {v : Variant} {s t : State} (hinv : Inv s) (h : extractValue v s = .next t) : Inv t := by
  obtain ⟨-, -, -, rfl⟩ := extractValue_next h
  exact inv_of_idle hinv.memInForm rfl

theorem readFrom_keeps_inv {v : Variant} {base len : Nat} {s t : State} (hinv : Inv s)
    (h : readFrom v base len s = .next t) : Inv t := by
  obtain ⟨-, -, ⟨x, n, -, rfl⟩ | ⟨e, -, rfl⟩⟩ := readFrom_next h
  · exact inv_of_idle hinv.memInForm rfl
  · exact inv_of_idle hinv.memInForm rfl

/-- A `WRITE_INTO` writes inside its window, which lies in the address space (R42). -/
theorem writeInto_keeps_inv {v : Variant} {base cap : Nat} {s t : State} (hinv : Inv s)
    (h : writeInto v base cap s = .next t) : Inv t := by
  obtain ⟨hwf, hspace⟩ := hinv.memInForm
  obtain ⟨-, -, -, hfits, ⟨-, rfl⟩ | ⟨hlen, rfl⟩⟩ := writeInto_next h
  · exact inv_of_idle ⟨memScramble_wf _ _ _ hwf, memScramble_below hfits hspace⟩ rfl
  · exact inv_of_idle ⟨memWriteBytes_wf _ hwf, memWriteBytes_below ((Nat.add_le_add_left hlen base).trans hfits) hspace⟩ rfl

/-! ### Acceptance -/

/-- An encode begins with the whole value in `REM` and nothing written. -/
theorem startEncoder_keeps_inv {v : Variant} {base cap : Nat} {s t : State} (hinv : Inv s)
    (h : startEncoder v base cap s = .next t) : Inv t := by
  obtain ⟨-, hvld, htag, hfits, rfl⟩ := startEncoder_next h
  exact inv_of_encProgress hinv.memInForm rfl
    ⟨hvld, htag, hfits, Nat.zero_le cap, (encLen_bounds v s.c.val).1, (remAfter_zero v s.c.val).symm,
      fun k hk => absurd hk k.not_lt_zero⟩

/-- A decode begins with an empty accumulator and nothing read. -/
theorem startDecoder_keeps_inv {v : Variant} {base len : Nat} {s t : State} (hinv : Inv s)
    (h : startDecoder v base len s = .next t) : Inv t := by
  obtain ⟨-, hfits, rfl⟩ := startDecoder_next h
  exact inv_of_decProgress hinv.memInForm rfl
    ⟨hfits, Nat.zero_le len, Nat.zero_le 10, fun k hk => absurd hk k.not_lt_zero, rfl, Nat.one_pos⟩

/-! ### Micro-steps -/

/-- A chunk that is not the last carries the encode on (R91, R92). -/
theorem emitChunk_keeps_encProgress {s : State} (h : encProgress s) (hcap : s.idx.toNat < s.portCap)
    (hmore : (chunk s.mode s.rem).last = false) : encProgress (emitChunk (chunk s.mode s.rem) s) := by
  obtain ⟨hvld, htag, hfits, -, hlen, hrem, hbytes⟩ := h
  have hten := (encLen_bounds s.mode s.c.val).2
  rw [hrem] at hmore
  have hidx : (s.idx + 1).toNat = s.idx.toNat + 1 := idx_succ_toNat (by omega)
  have hnext : s.idx.toNat + 1 ≠ encLen s.mode s.c.val := fun heq => by
    simp [(chunk_remAfter_last_iff hlen).2 heq] at hmore
  refine ⟨hvld, htag, hfits, ?_, ?_, ?_, ?_⟩
  · simp only [emitChunk_idx, emitChunk_portCap, hidx]
    exact hcap
  · simp only [emitChunk_idx, emitChunk_mode, emitChunk_c, hidx]
    omega
  · simp only [emitChunk_rem, emitChunk_idx, emitChunk_mode, emitChunk_c, hidx, hrem, chunk_rem_remAfter]
  · simp only [emitChunk_idx, emitChunk_mode, emitChunk_c, emitChunk_portBase, emitChunk_mem, hidx]
    intro k hk
    obtain rfl | hlt := Nat.eq_or_lt_of_le (Nat.le_of_lt_succ hk)
    · rw [memRead_memWrite_same, hrem, chunk_remAfter_byte hlen]
    · rw [memRead_memWrite_ne _ _ (by omega), hbytes k hlt]

theorem encTick_keeps_inv {s : State} (hinv : Inv s) (henc : s.phase = .enc) : Inv (encTick s) := by
  obtain ⟨-, -, hfits, -⟩ := hinv.encProgress henc
  have hform (hcap : s.idx.toNat < s.portCap) (b : Byte) :=
    memInForm_memWrite hinv.memInForm (a := s.portBase + s.idx.toNat) (by omega) b
  obtain ⟨-, heq⟩ | ⟨hcap, -, heq⟩ | ⟨hcap, hmore, heq⟩ := encTick_cases s <;> rw [heq]
  · exact inv_of_idle hinv.memInForm rfl
  · exact inv_of_idle (hform hcap _) rfl
  · exact inv_of_encProgress (hform hcap _) henc (emitChunk_keeps_encProgress (hinv.encProgress henc) hcap hmore)

/-- A continuation byte fetched at the position carries the decode on (R93). -/
theorem takeByte_keeps_decProgress {s : State} (h : decProgress s) (hlen : s.idx.toNat < s.portLen)
    (hten : s.idx.toNat < 10) (hcont : contOf (fetchByte s) = true) : decProgress (takeByte (fetchByte s) s) := by
  obtain ⟨hfits, -, -, hbytes, hacc, hsmall⟩ := h
  have hidx : (s.idx + 1).toNat = s.idx.toNat + 1 := idx_succ_toNat hten
  simp only [decProgress, takeByte_aw, takeByte_portBase, takeByte_portLen, takeByte_idx, takeByte_mem, takeByte_acc, hidx]
  refine ⟨hfits, hlen, hten, fun k hk => ?_, accumulate_wideValue hacc hsmall, accumulate_lt _ hsmall⟩
  obtain rfl | hlt := Nat.eq_or_lt_of_le (Nat.le_of_lt_succ hk)
  · exact hcont
  · exact hbytes k hlt

/-- The byte at the position either carries the decode on or ends it. -/
theorem consumeByte_keeps_inv {s : State} (hinv : Inv s) (hdec : s.phase = .dec) : Inv (consumeByte (fetchByte s) s) := by
  obtain ⟨-, heq⟩ | ⟨-, -, heq⟩ | ⟨-, -, -, heq⟩ | ⟨hlen, hten, -, hcont, heq⟩ | ⟨-, -, -, -, heq⟩ :=
    consumeByte_cases (fetchByte s) s <;> rw [heq]
  case inr.inr.inr.inl =>
    exact inv_of_decProgress hinv.memInForm hdec (takeByte_keeps_decProgress (hinv.decProgress hdec) hlen hten hcont)
  all_goals exact inv_of_idle hinv.memInForm rfl

theorem endOfWindow_keeps_inv {s : State} (hinv : Inv s) : Inv (endOfWindow s) := by
  unfold endOfWindow
  split
  · exact inv_of_idle hinv.memInForm rfl
  · exact inv_of_idle hinv.memInForm rfl

theorem tick_keeps_inv {s t : State} (hinv : Inv s) (h : tick s = .next t) : Inv t := by
  obtain ⟨-, heq⟩ | ⟨henc, heq⟩ | ⟨-, -, heq⟩ | ⟨-, -, heq⟩ := tick_eq s <;> rw [heq] at h
  · obtain rfl := Host.Outcome.next.inj h
    exact hinv
  · obtain rfl := Host.Outcome.next.inj h
    exact encTick_keeps_inv hinv henc
  · rw [exec_decodeByte] at h
    obtain ⟨hdec, rfl⟩ := byteStep_next h
    exact consumeByte_keeps_inv hinv hdec
  · obtain rfl := Host.Outcome.next.inj h
    exact endOfWindow_keeps_inv hinv

/-! ### The host's other moves -/

/-- A function unit delivers its outputs and changes nothing else (R85). -/
theorem runUnit_next {u : UnitPorts} {s t : State} (h : runUnit u s = .next t) : ∃ o, t = { s with unitOut := o } := by
  cases hdec : decodeUnit u with
  | error r =>
    rw [runUnit, hdec] at h
    cases h
  | ok i =>
    rw [runUnit_of_decodeUnit hdec] at h
    obtain rfl | rfl | rfl | rfl := decodeUnit_cases hdec
    · exact ⟨_, (Host.Outcome.next.inj h).symm⟩
    · exact ⟨_, (Host.Outcome.next.inj h).symm⟩
    · exact ⟨_, (execAccum_next h).2⟩
    · exact ⟨_, (execSext_next h).2⟩

/-- A write outside the window leaves an encode in progress. -/
theorem encProgress_memWrite {s : State} (h : encProgress s) {a : Nat}
    (ha : ¬(s.portBase ≤ a ∧ a < s.portBase + s.portCap)) (b : Byte) :
    encProgress { s with mem := memWrite s.mem a b } := by
  obtain ⟨hvld, htag, hfits, hcap, hlen, hrem, hbytes⟩ := h
  have hsame (k : Nat) (hk : k < s.idx.toNat) :
      memRead (memWrite s.mem a b) (s.portBase + k) = memRead s.mem (s.portBase + k) :=
    memRead_memWrite_ne _ _ (by omega)
  exact ⟨hvld, htag, hfits, hcap, hlen, hrem, fun k hk => (hsame k hk).trans (hbytes k hk)⟩

/-- A write outside the window leaves a decode in progress. -/
theorem decProgress_memWrite {s : State} (h : decProgress s) {a : Nat}
    (ha : ¬(s.portBase ≤ a ∧ a < s.portBase + s.portLen)) (b : Byte) :
    decProgress { s with mem := memWrite s.mem a b } := by
  obtain ⟨hfits, hlen, hten, hbytes, hacc, hsmall⟩ := h
  have hsame (k : Nat) (hk : k < s.idx.toNat) :
      memRead (memWrite s.mem a b) (s.portBase + k) = memRead s.mem (s.portBase + k) :=
    memRead_memWrite_ne _ _ (by omega)
  exact ⟨hfits, hlen, hten, fun k hk => (congrArg contOf (hsame k hk)).trans (hbytes k hk),
    hacc.trans (by rw [memBytes_congr hsame]), hsmall⟩

/-- The host writes outside the window of the running command (R176). -/
theorem hostWrite_keeps_inv {a : Nat} {b : Byte} {s t : State} (hinv : Inv s) (h : hostWrite a b s = .next t) : Inv t := by
  obtain ⟨ha, howned, rfl⟩ := hostWrite_next h
  obtain ⟨hwf, hspace⟩ := memInForm_memWrite hinv.memInForm ha b
  refine ⟨hwf, hspace, fun (henc : s.phase = .enc) => encProgress_memWrite (hinv.encProgress henc) ?_ b,
    fun (hdec : s.phase = .dec) => decProgress_memWrite (hinv.decProgress hdec) ?_ b⟩
  · simpa only [ownedForWrite, henc, inWindow, decide_eq_false_iff_not] using howned
  · simpa only [ownedForWrite, hdec, inWindow, decide_eq_false_iff_not] using howned

/-- A reset leaves an idle block; the window it may scramble lies in the address space. -/
theorem resetBlock_keeps_inv {s : State} (hinv : Inv s) : Inv (resetBlock s) := by
  obtain ⟨hwf, hspace⟩ := hinv.memInForm
  refine inv_of_idle ?_ rfl
  unfold memInForm memInSpace
  rw [resetBlock_mem, resetBlock_aw, cutWindow]
  cases hphase : s.phase with
  | idle => exact ⟨hwf, hspace⟩
  | enc =>
    obtain ⟨-, -, hfits, -⟩ := hinv.encProgress hphase
    exact ⟨memScramble_wf _ _ _ hwf, memScramble_below hfits hspace⟩
  | dec => exact ⟨hwf, hspace⟩

/-! ### Every move -/

theorem issue_keeps_inv {p : CmdPorts} {s t : State} (hinv : Inv s) (h : exec (decodeCmd p) s = .next t) : Inv t := by
  obtain ⟨v, hcmd⟩ | ⟨v, hcmd⟩ | ⟨v, hcmd⟩ | ⟨v, hcmd⟩ := decodeCmd_cases p <;> rw [hcmd] at h
  · exact construct_keeps_inv hinv (exec_fromInstr v _ s ▸ h)
  · exact writeInto_keeps_inv hinv (exec_writeInstr v _ _ s ▸ h)
  · exact readFrom_keeps_inv hinv (exec_readInstr v _ _ s ▸ h)
  · exact extractValue_keeps_inv hinv (exec_valueInstr v s ▸ h)

theorem accept_keeps_inv {p : CmdPorts} {s t : State} (hinv : Inv s) (h : acceptCommand (decodeCmd p) s = .next t) :
    Inv t := by
  obtain ⟨v, hcmd⟩ | ⟨v, hcmd⟩ | ⟨v, hcmd⟩ | ⟨v, hcmd⟩ := decodeCmd_cases p <;> rw [hcmd] at h
  · exact construct_keeps_inv hinv (acceptCommand_fromInstr v _ s ▸ h)
  · exact startEncoder_keeps_inv hinv (acceptCommand_writeInstr v _ _ s ▸ h)
  · exact startDecoder_keeps_inv hinv (acceptCommand_readInstr v _ _ s ▸ h)
  · exact extractValue_keeps_inv hinv (acceptCommand_valueInstr v s ▸ h)

theorem runInput_keeps_inv {x : Input} {s t : State} (hinv : Inv s) (h : runInput x s = .next t) : Inv t := by
  cases x with
  | issue p => exact issue_keeps_inv hinv h
  | accept p => exact accept_keeps_inv hinv h
  | tick => exact tick_keeps_inv hinv h
  | unit u =>
    obtain ⟨o, rfl⟩ := runUnit_next h
    exact hinv
  | hostWrite a b => exact hostWrite_keeps_inv hinv h
  | hostRead a =>
    obtain ⟨-, rfl⟩ := hostRead_next h
    exact hinv
  | reset =>
    obtain rfl := Host.Outcome.next.inj h
    exact resetBlock_keeps_inv hinv

/-- Settles O48, by the host's next move: the invariant says nothing of the moves still pending. -/
theorem stepKeepsInvariant : Obligations.StepKeepsInvariant := by
  intro s t hinv h
  cases hin : s.inputs with
  | nil =>
    rw [step, hin] at h
    obtain rfl := Host.Outcome.next.inj h
    exact hinv
  | cons x rest =>
    rw [step_of_inputs_cons hin] at h
    exact runInput_keeps_inv (s := { s with inputs := rest }) hinv h

end Sys2Proof.Machine
end

section
/-! SUPPORT. Family 40_chunker, the outputs: the encoder micro-step, the four units, and the two byte forms in a running decode. -/

namespace Sys2Proof.Machine

/-! ## The encoder micro-step -/

theorem step_of_encTick {s : State} {rest : List Input} (hin : s.inputs = .tick :: rest) (henc : s.phase = .enc) :
    step s = .next (encTick { s with inputs := rest }) := by
  rw [step_of_inputs_cons hin, runInput, tick]
  simp only [henc]

/-- What a chunk step leaves of the value: the quotient by 128, in the reading of the variant (R86, R87). -/
theorem chunk_rem_quotient (v : Variant) (x : Word) :
    (v = .uleb → (chunk v x).rem.toNat = x.toNat / 128) ∧ (v = .sleb → (chunk v x).rem.toInt = x.toInt / 128) := by
  cases v with
  | uleb => exact ⟨fun _ => lsr7_toNat x, nofun⟩
  | sleb => exact ⟨nofun, fun _ => asr7_toInt x⟩

theorem chunk_last_iff_range (v : Variant) (x : Word) :
    (chunk v x).last = true ↔ (v = .uleb ∧ x.toNat < 128) ∨ (v = .sleb ∧ -64 ≤ x.toInt ∧ x.toInt < 64) := by
  cases v with
  | uleb => simpa [chunk] using chunkUnsigned_last_iff x
  | sleb => simpa [chunk] using chunkSigned_last_iff_range x

theorem sameOutside_emitChunk (k : Chunk) (s : State) :
    sameOutside (s.portBase + s.idx.toNat) 1 s (emitChunk k s) :=
  fun _ ha => memRead_memWrite_ne _ _ (by omega)

/-- Settles O4, by the three ways of the encoder micro-step. -/
theorem encoderMicroStep : Obligations.EncoderMicroStep := by
  refine ⟨fun s rest hin henc hcap => ?_, fun s rest hin henc hcap hidx => ?_⟩
  · rw [step_of_encTick hin henc, encTick, if_pos hcap]
    exact ⟨_, rfl, fun _ _ => rfl, rfl⟩
  · obtain ⟨hquot, hfloor⟩ := chunk_rem_quotient s.mode s.rem
    have hnext : (s.idx + 1).toNat = s.idx.toNat + 1 := idx_succ_toNat (by omega)
    have hbyte : (memRead (memWrite s.mem (s.portBase + s.idx.toNat) (chunk s.mode s.rem).byte)
        (s.portBase + s.idx.toNat)).toNat = s.rem.toNat % 128 + (if (chunk s.mode s.rem).last then 0 else 128) := by
      rw [memRead_memWrite_same, chunk_byte_toNat]
    have hout := sameOutside_emitChunk (chunk s.mode s.rem) { s with inputs := rest }
    rw [step_of_encTick hin henc, encTick, if_neg (Nat.not_le.2 hcap)]
    refine ⟨_, (chunk s.mode s.rem).last, rfl, chunk_last_iff_range _ _, ?_⟩
    cases hlast : (chunk s.mode s.rem).last <;> rw [hlast] at hbyte
    · exact ⟨hquot, hfloor, hnext, hbyte, hout, by simp [emitChunk, henc]⟩
    · exact ⟨hquot, hfloor, hnext, hbyte, hout, rfl⟩

/-! ## The chunk steps -/

/-- A run of `CHUNK.U` steps shifts the value by one group each time. -/
theorem chunkU_run {s : State} {x : Nat → Word}
    (hrun : ∀ k, ∃ t, exec (.chunkU (x k)) s = .next t ∧ t.unitOut.rem = x (k + 1)) (k : Nat) :
    x k = remAfter .uleb k (x 0) := by
  induction k with
  | zero => exact (remAfter_zero .uleb _).symm
  | succ k ih =>
    obtain ⟨t, hexec, hrem⟩ := hrun k
    obtain rfl := Host.Outcome.next.inj hexec
    rw [← hrem, ← chunk_rem_remAfter, ← ih]
    rfl

/-- Settles O20: the outputs one by one; ten groups are more than the 64 bits of the value. -/
theorem chunkUnsignedOutputs : Obligations.ChunkUnsignedOutputs := by
  refine ⟨fun rem s => ⟨_, rfl, lowGroup_toNat rem, lsr7_toNat rem, beq_iff_eq, chunk_byte_toNat .uleb rem, rfl, rfl⟩,
    fun s x hrun => ⟨10, le_rfl, ?_⟩⟩
  rw [chunkU_run hrun 10]
  exact BitVec.ushiftRight_eq_zero (by omega)

/-- Settles O21: the two forms of the last test are the definition's and the range of one signed group. -/
theorem chunkSignedOutputs : Obligations.ChunkSignedOutputs := by
  intro rem s
  exact ⟨_, rfl, lowGroup_toNat rem, asr7_toInt rem, chunkSigned_last_iff rem, chunkSigned_last_iff_range rem,
    chunk_byte_toNat .sleb rem, rfl, rfl⟩

/-- With bit 63 clear the two shifts agree. -/
theorem asr7_eq_lsr7 {x : Word} (h : x.getLsbD 63 = false) : asr7 x = lsr7 x := by
  rw [asr7_eq, lsr7_eq, BitVec.sshiftRight_eq_of_msb_false (by rwa [BitVec.msb_eq_getLsbD_last])]

/-- Settles O22, by the ranges on which the two steps end. -/
theorem chunkVariantsPart : Obligations.ChunkVariantsPart := by
  intro rem s t u ht hu
  obtain rfl := Host.Outcome.next.inj ht
  obtain rfl := Host.Outcome.next.inj hu
  have hulast := chunkUnsigned_last_iff rem
  have hslast := chunkSigned_last_iff_range rem
  have hint := BitVec.toInt_eq_toNat_cond rem
  refine ⟨rfl, fun hpos => ⟨(asr7_eq_lsr7 hpos).symm, ?_⟩, fun hrange => ?_⟩
  · have hmsb : rem.toNat < 2 ^ 63 := toNat_lt_two_pow_iff.2 fun j hj hj64 => by
      obtain rfl : j = 63 := by omega
      exact hpos
    rw [deliverChunk_unitOut, deliverChunk_unitOut, Ne, Bool.eq_iff_iff, hulast, hslast]
    split at hint <;> omega
  · rw [deliverChunk_unitOut, deliverChunk_unitOut, ← Bool.not_eq_true, hulast, hslast]
    split at hint <;> omega

/-! ## The decoder's units -/

theorem execAccum_of_le {idx : Nat} (h : idx ≤ 9) (acc : Word) (b : Byte) (s : State) :
    execAccum acc idx b s = .next (deliverAcc (accumulate acc idx b) s) := if_pos h

theorem execSext_of_range {n : Nat} (h : 1 ≤ n ∧ n ≤ 10) (acc : Word) (p : Group) (s : State) :
    execSext acc n p s = .next (deliverAcc (extendSign acc n p) s) := if_pos h

/-- Settles O23: the accumulator's bits, and its sum where the two summands share no bit. -/
theorem accumulateOutput : Obligations.AccumulateOutput := by
  intro acc idx b s hidx
  exact ⟨_, execAccum_of_le hidx acc b s, fun _ hj => accumulate_getLsbD acc idx b hj, accumulate_toNat b, rfl⟩

/-- `SEXT` bit by bit (R90): it is what the signed decoder makes of the accumulator. -/
theorem extendSign_getLsbD (acc : Word) (n : Nat) (p : Group) {j : Nat} (hj : j < 64) :
    (extendSign acc n p).getLsbD j = (acc.getLsbD j || (decide (7 * n < 64 ∧ 7 * n ≤ j) && p.getLsbD 6)) := by
  have hrange : decide (7 * n < 64 ∧ 7 * n ≤ j) = decide (7 * n ≤ j) := decide_eq_decide.2 (by omega)
  rw [hrange]
  simpa [finishAcc] using finishAcc_getLsbD .sleb acc n p hj

/-- Settles O24: the extension's bits, with `n` inside the unit's range. -/
theorem signExtendOutput : Obligations.SignExtendOutput := by
  intro acc n p s hpos hten
  exact ⟨_, execSext_of_range ⟨hpos, hten⟩ acc p s, fun _ hj => extendSign_getLsbD acc n p hj, rfl⟩

/-! ## The bytes of a running decode -/

theorem byteStep_of_dec {s : State} (h : s.phase = .dec) (b : Byte) : byteStep b s = .next (consumeByte b s) := if_pos h

theorem byteStep_of_not_dec {s : State} (h : s.phase ≠ .dec) (b : Byte) :
    byteStep b s = .refused .byteOutsideDecode := if_neg h

theorem consumeByte_of_cont {b : Byte} {s : State} (hopen : positionOpen s = true) (hcont : contOf b = true) :
    consumeByte b s = takeByte b s := by
  simp [consumeByte, hopen, outOfRange_of_cont _ _ hcont, hcont]

theorem consumeByte_of_term {b : Byte} {s : State} (hopen : positionOpen s = true)
    (hrange : outOfRange s.mode s.idx.toNat b = false) (hterm : contOf b = false) :
    consumeByte b s = finishDecode (payloadOf b) (takeByte b s) := by
  simp [consumeByte, hopen, hrange, hterm]

/-- The accumulated bits in terms of the payload: a bit above the payload is zero. -/
theorem accumulate_mkByte_getLsbD (acc : Word) (idx : Nat) (c : Bool) (p : Group) {j : Nat} (hj : j < 64) :
    (accumulate acc idx (mkByte c p)).getLsbD j =
      (acc.getLsbD j || (decide (7 * idx ≤ j) && p.getLsbD (j - 7 * idx))) := by
  rw [accumulate_getLsbD _ _ _ hj]
  by_cases hhigh : j < 7 * idx + 7
  · by_cases hlow : 7 * idx ≤ j
    · simp [hlow, hhigh, mkByte_getLsbD c p (show j - 7 * idx < 7 by omega)]
    · simp [hlow]
  · simp [hhigh, BitVec.getLsbD_of_ge p (j - 7 * idx) (by omega)]

/-- Settles O25: a continuation byte is never out of range, so the decode takes it. -/
theorem continuationByteAccumulates : Obligations.ContinuationByteAccumulates := by
  intro p s hdec hlen hidx
  have hopen : positionOpen s = true := positionOpen_iff.2 ⟨hlen, by omega⟩
  refine ⟨takeByte (mkByte true p) s, ?_, idx_succ_toNat (by omega),
    fun j hj => accumulate_mkByte_getLsbD s.acc _ true p hj, rfl⟩
  exact (byteStep_of_dec hdec _).trans (congrArg _ (consumeByte_of_cont hopen (contOf_mkByte true p)))

/-- A terminator whose payload fits at index 9 is in range (R73). -/
theorem outOfRange_terminator {v : Variant} {i : Nat} {p : Group} (huleb : i = 9 → v = .uleb → p.toNat ≤ 1)
    (hsleb : i = 9 → v = .sleb → p.toNat = 0 ∨ p.toNat = 127) : outOfRange v i (mkByte false p) = false := by
  by_cases hi : i = 9
  · subst hi
    have hval : (mkByte false p).toNat = p.toNat := mkByte_toNat false p
    rw [← Bool.not_eq_true, outOfRange_nine_iff, hval]
    rintro ⟨-, ⟨rfl, hp⟩ | ⟨rfl, hp⟩⟩
    · have := huleb rfl rfl
      omega
    · have := hsleb rfl rfl
      omega
  · simp [outOfRange, hi]

/-- Settles O26: the terminator is taken, then the decode finished with the codec it constructs. -/
theorem terminatorByteEndsDecode : Obligations.TerminatorByteEndsDecode := by
  intro p s hdec hlen hidx huleb hsleb
  have hopen : positionOpen s = true := positionOpen_iff.2 ⟨hlen, by omega⟩
  have hnext : (s.idx + 1).toNat = s.idx.toNat + 1 := idx_succ_toNat (by omega)
  have hconsume := consumeByte_of_term hopen (outOfRange_terminator huleb hsleb) (contOf_mkByte false p)
  rw [payloadOf_mkByte] at hconsume
  refine ⟨finishDecode p (takeByte (mkByte false p) s), ?_, hnext, rfl, rfl, fun j hj => ?_, rfl⟩
  · exact (byteStep_of_dec hdec _).trans (congrArg _ hconsume)
  · have hsign : decide (s.mode = .sleb ∧ 7 * (s.idx.toNat + 1) < 64 ∧ 7 * (s.idx.toNat + 1) ≤ j) =
        (decide (7 * (s.idx.toNat + 1) ≤ j) && decide (s.mode = .sleb)) := by
      rw [← Bool.decide_and]
      exact decide_eq_decide.2 ⟨fun ⟨hmode, _, hj⟩ => ⟨hj, hmode⟩, fun ⟨hj, hmode⟩ => ⟨hmode, by omega, hj⟩⟩
    rw [finishDecode_acc, takeByte_mode, takeByte_idx, takeByte_acc, hnext, finishAcc_getLsbD _ _ _ _ hj,
      accumulate_mkByte_getLsbD _ _ _ _ hj, hsign, Bool.and_assoc]

/-- Settles O19: the tests of the two counted units fail, and a byte finds no decode running. -/
theorem unitRangeAndStrayByteRefused : Obligations.UnitRangeAndStrayByteRefused :=
  ⟨fun _ _ _ _ hidx => if_neg (Nat.not_le.2 hidx), fun _ _ _ _ hn => if_neg (by omega),
   fun _ _ hphase => ⟨byteStep_of_not_dec hphase _, byteStep_of_not_dec hphase _⟩⟩

end Sys2Proof.Machine
end

section
/-! SUPPORT. Family 41_uleb128: the encoder writes the canonical encoding, the decoder reads it back, and what each command of the
unsigned codec leaves. -/

namespace Sys2Proof.Machine

/-! ## The encoder's bytes are the canonical encoding -/

/-- From index `k` on, before the end of the encoding, the encoder's loop emits the rest of the canonical bytes (R91, R102). -/
theorem encodeLoop_remAfter {v : Variant} {fuel k : Nat} {x : Word} (hk : k < encLen v x) (hfuel : encLen v x ≤ k + fuel) :
    encodeLoop v fuel (remAfter v k x) = (canonical v x).drop k := by
  induction fuel generalizing k with
  | zero => omega
  | succ fuel ih =>
    have hbyte : (canonical v x).drop k = (chunk v (remAfter v k x)).byte :: (canonical v x).drop (k + 1) := by
      rw [List.drop_eq_getElem_cons (by simpa using hk), chunk_remAfter_byte hk, List.getD_eq_getElem]
    rw [hbyte, encodeLoop]
    congr 1
    split
    case isTrue hlast =>
      have hend := (chunk_remAfter_last_iff hk).1 hlast
      rw [List.drop_of_length_le (by simp [hend])]
    case isFalse hmore =>
      have hnext : k + 1 ≠ encLen v x := fun hend => hmore ((chunk_remAfter_last_iff hk).2 hend)
      rw [chunk_rem_remAfter, ih (by omega) (by omega)]

/-- The bytes of a `WRITE_INTO` are the canonical encoding (R69, R70). -/
theorem encodeBytes_eq_canonical (v : Variant) (x : Word) : encodeBytes v x = canonical v x := by
  obtain ⟨hpos, hten⟩ := encLen_bounds v x
  simpa [encodeBytes, remAfter_zero] using encodeLoop_remAfter (v := v) (fuel := 10) (k := 0) hpos (by omega)

/-- `RLEN` holds every length a command returns (R24). -/
theorem toNat_ofNat_four {n : Nat} (h : n ≤ 10) : (BitVec.ofNat 4 n).toNat = n := by
  rw [BitVec.toNat_ofNat, Nat.mod_eq_of_lt (by omega)]

/-- A `WRITE_INTO` with room writes the canonical encoding and returns its length (R102, R122). -/
theorem writeInto_of_room {v : Variant} {base cap : Nat} {s : State} (hidle : s.phase = .idle) (hvld : s.c.vld = true)
    (htag : s.c.tag = v) (hfits : base + cap ≤ 2 ^ s.aw) (hroom : encLen v s.c.val ≤ cap) :
    writeInto v base cap s = .next (returnLen (BitVec.ofNat 4 (encLen v s.c.val))
      (withMem (memWriteBytes s.mem base (canonical v s.c.val)) (forgetEncoder v s))) := by
  refine guarded_eq_next.2 ⟨writeGuard_eq_none.2 ⟨hidle, hvld, htag, hfits⟩, ?_⟩
  rw [writeEffect_of_le (by simpa [encodeBytes_eq_canonical] using hroom), encodeBytes_eq_canonical, canonical_length]
  rfl

/-! ## The decoder reads the canonical encoding back -/

/-- The memory holds the canonical encoding of `x` at `base`. -/
def holdsCanonical (v : Variant) (x : Word) (m : Memory) (base : Nat) : Prop :=
  ∀ k, k < encLen v x → memRead m (base + k) = (canonical v x).getD k 0

theorem memWriteBytes_holdsCanonical (v : Variant) (x : Word) (m : Memory) (base : Nat) :
    holdsCanonical v x (memWriteBytes m base (canonical v x)) base := by
  intro k hk
  rw [memRead_memWriteBytes_inside _ _ _ _ (by simpa using hk), List.getD_eq_getElem]

/-- A tenth payload is in range where its bits from 1 on are what bit 63 of the value extends to (R73). -/
theorem tenthOk_of_getLsbD {v : Variant} {p : Group}
    (h : ∀ k, k < 7 → 1 ≤ k → p.getLsbD k = (decide (v = .sleb) && p.getLsbD 0)) : tenthOk v p = true := by
  revert p
  cases v <;> decide

section
variable {v : Variant} {x : Word} {m : Memory} {base : Nat}

theorem holdsCanonical.contOf_eq (h : holdsCanonical v x m base) {k : Nat} (hk : k < encLen v x) :
    contOf (memRead m (base + k)) = decide (k + 1 < encLen v x) := by
  rw [h k hk, canonical_getD hk, contOf_mkByte]

theorem holdsCanonical.decodable (h : holdsCanonical v x m base) : Decodable v m base (encLen v x) := by
  obtain ⟨hpos, hten⟩ := encLen_bounds v x
  refine ⟨hpos, hten, fun k hk => h.contOf_eq hk, fun hlen => tenthOk_of_getLsbD fun k hk hk1 => ?_⟩
  rw [h 9 (by omega), canonical_getD (by omega), payloadOf_mkByte, BitVec.getLsbD_extractLsb', BitVec.getLsbD_extractLsb',
    decide_eq_true hk, wide70_getLsbD _ _ (by omega), wide70_getLsbD _ _ (by omega), if_neg (by omega)]
  rfl

/-- Decoding the canonical encoding gives the value encoded. -/
theorem holdsCanonical.decodedValue_eq (h : holdsCanonical v x m base) : decodedValue v m base (encLen v x) = x := by
  have hpos := (encLen_bounds v x).1
  refine BitVec.eq_of_getLsbD_eq fun j hj => ?_
  rw [decodedValue_getLsbD _ _ _ _ hj, getLsbD_of_canonical v x hj, canonical_length, h _ (Nat.sub_one_lt_of_lt hpos)]
  split
  case isTrue hlow => rw [h (j / 7) (by omega)]
  case isFalse => rfl

/-- A slice shorter than the canonical encoding holds continuation bytes only (R142). -/
theorem holdsCanonical.truncated (h : holdsCanonical v x m base) {len : Nat} (hlen : len < encLen v x) :
    decodeWindow v m base len = .err .unexpectedEndOfBuffer := by
  have hten := (encLen_bounds v x).2
  refine decodeWindow_truncated (by omega) fun k hk => ?_
  rw [h.contOf_eq (by omega), decide_eq_true (by omega)]

/-- A `READ_FROM` of the canonical encoding constructs the codec and returns the encoded length, whatever follows. -/
theorem holdsCanonical.readFrom_eq {len : Nat} {s : State} (h : holdsCanonical v x s.mem base) (hidle : s.phase = .idle)
    (hfits : base + len ≤ 2 ^ s.aw) (hlen : encLen v x ≤ len) :
    readFrom v base len s =
      .next (returnLen (BitVec.ofNat 4 (encLen v x)) (holdCodec v x (forgetDecoder v s))) := by
  rw [readFrom_of_decodable hidle hfits hlen h.decodable, h.decodedValue_eq]

end

/-! ## The round trip -/

/-- What R109 and R128 say of a variant: `FROM`, `WRITE_INTO`, `READ_FROM` give the operand back. -/
theorem from_write_read (v : Variant) (x : Word) (base cap len : Nat) (s : State) (hidle : s.phase = .idle)
    (hroom : encLen v x ≤ cap) (hcap : base + cap ≤ 2 ^ s.aw) (hslice : base + len ≤ 2 ^ s.aw) :
    ∃ s1 s2, exec (fromInstr v x) s = .next s1 ∧ exec (writeInstr v base cap) s1 = .next s2 ∧
      s2.stat = 0 ∧ s2.rlen.toNat = encLen v x ∧
      ∀ m : Memory, (∀ k, k < encLen v x → memRead m (base + k) = memRead s2.mem (base + k)) →
        (encLen v x ≤ len → ∃ s3, exec (readInstr v base len) { s2 with mem := m } = .next s3 ∧
          s3.stat = 0 ∧ s3.c = { vld := true, tag := v, val := x } ∧ s3.rlen = s2.rlen) ∧
        (len < encLen v x → ∃ s3, exec (readInstr v base len) { s2 with mem := m } = .next s3 ∧ s3.stat = 2) := by
  simp only [exec_fromInstr, exec_writeInstr, exec_readInstr]
  refine ⟨_, _, construct_of_idle v x hidle, writeInto_of_room rfl rfl rfl hcap hroom, rfl,
    toNat_ofNat_four (encLen_bounds v x).2, fun m hsame => ?_⟩
  have hm : holdsCanonical v x m base := fun k hk =>
    (hsame k hk).trans (memWriteBytes_holdsCanonical v x s.mem base k hk)
  exact ⟨fun hlen => ⟨_, hm.readFrom_eq rfl hslice hlen, rfl, rfl, rfl⟩,
    fun hlen => ⟨_, readFrom_of_err rfl hslice (hm.truncated hlen), rfl⟩⟩

/-- Settles O41: the unsigned case of the round trip. -/
theorem ulebRoundTrip : Obligations.UlebRoundTrip := from_write_read .uleb

/-! ## What a `WRITE_INTO` with room leaves -/

/-- What R102 and R122 say of a variant: the canonical encoding at `base`, and nothing else changed. -/
theorem write_canonical (v : Variant) (base cap : Nat) (s : State) (hidle : s.phase = .idle) (hvld : s.c.vld = true)
    (htag : s.c.tag = v) (hfits : base + cap ≤ 2 ^ s.aw) (hroom : encLen v s.c.val ≤ cap) :
    ∃ t, exec (writeInstr v base cap) s = .next t ∧ t.stat = 0 ∧ t.rlen.toNat = encLen v s.c.val ∧
      holdsCanonical v s.c.val t.mem base ∧ sameOutside base (encLen v s.c.val) s t ∧
      t.c = s.c ∧ t.rval = s.rval ∧ t.acc = s.acc ∧ t.phase = .idle ∧ hostSideSame s t := by
  rw [exec_writeInstr, writeInto_of_room hidle hvld htag hfits hroom]
  refine ⟨_, rfl, rfl, toNat_ofNat_four (encLen_bounds v s.c.val).2, memWriteBytes_holdsCanonical v s.c.val s.mem base,
    fun a ha => ?_, rfl, rfl, rfl, rfl, rfl, rfl, rfl, rfl, rfl, rfl⟩
  exact memRead_memWriteBytes_outside _ _ _ _ (by rwa [canonical_length])

/-- Settles O29: the unsigned case of a `WRITE_INTO` with room. -/
theorem ulebWriteCanonical : Obligations.UlebWriteCanonical := write_canonical .uleb

/-! ## Sequences, and the wide value they assemble to -/

/-- In a sequence the continuation bit is set before the last byte and clear on it (R62). -/
theorem contOf_of_isSequence {l : List Byte} (h : isSequence l = true) :
    1 ≤ l.length ∧ ∀ k, (hk : k < l.length) → contOf l[k] = decide (k + 1 < l.length) := by
  induction l with
  | nil => cases h
  | cons b l ih =>
    refine ⟨Nat.succ_pos _, fun k hk => ?_⟩
    cases l with
    | nil =>
      obtain rfl : k = 0 := Nat.lt_one_iff.1 hk
      simpa [isSequence] using h
    | cons c l =>
      obtain ⟨hb, hl⟩ : contOf b = true ∧ isSequence (c :: l) = true := by simpa [isSequence] using h
      cases k with
      | zero => simpa using hb
      | succ k => simpa using (ih hl).2 k (Nat.lt_of_succ_lt_succ hk)

/-- A sequence of at most ten bytes, the tenth payload in range, is decodable (R73, case valid). -/
theorem decodable_of_isSequence {v : Variant} {m : Memory} {base n : Nat} (hten : n ≤ 10)
    (hseq : isSequence (memBytes m base n) = true)
    (htenth : n = 10 → tenthOk v (payloadOf (memRead m (base + 9))) = true) : Decodable v m base n := by
  obtain ⟨hpos, hcont⟩ := contOf_of_isSequence hseq
  rw [memBytes_length] at hpos
  exact ⟨hpos, hten, fun k hk => by simpa [memBytes] using hcont k (by simpa using hk), htenth⟩

theorem accumulated_lt (m : Memory) (base n : Nat) : (accumulated m base n).toNat < 2 ^ (7 * n) := by
  induction n with
  | zero => exact Nat.one_pos
  | succ n ih => exact accumulate_lt _ ih

theorem accumulated_eq_wideValue (m : Memory) (base n : Nat) :
    accumulated m base n = BitVec.ofNat 64 (wideValue (memBytes m base n)) := by
  induction n with
  | zero => rfl
  | succ n ih => exact accumulate_wideValue ih (accumulated_lt m base n)

theorem wideValue_lt (l : List Byte) : wideValue l < 2 ^ (7 * l.length) := by
  induction l with
  | nil => exact Nat.one_pos
  | cons b l ih =>
    have hgroup := (payloadOf b).isLt
    rw [wideValue, List.length_cons, Nat.mul_succ, Nat.pow_add]
    omega

theorem tenthOk_uleb_iff (b : Byte) : tenthOk .uleb (payloadOf b) = true ↔ b.toNat % 128 ≤ 1 := by
  revert b
  decide

/-- The wide value of a slice that is decodable in the unsigned variant fits 64 bits: ten groups hold 63 bits and the one a tenth
payload in range has (R64, R73). -/
theorem wideValue_lt_of_decodable {m : Memory} {base n : Nat} (h : Decodable .uleb m base n) :
    wideValue (memBytes m base n) < 2 ^ 64 := by
  obtain rfl | hlt := Nat.eq_or_lt_of_le h.le_ten
  · have hnine := wideValue_lt (memBytes m base 9)
    have htenth := (tenthOk_uleb_iff _).1 (h.tenth rfl)
    rw [memBytes_length] at hnine
    rw [memBytes_succ, wideValue_append_singleton, memBytes_length]
    omega
  · calc wideValue (memBytes m base n) < 2 ^ (7 * n) := by simpa using wideValue_lt (memBytes m base n)
      _ ≤ 2 ^ 64 := Nat.pow_le_pow_right (by omega) (by omega)

/-- The unsigned decoder gives the wide value (R64). -/
theorem decodedValue_uleb_toNat {m : Memory} {base n : Nat} (h : Decodable .uleb m base n) :
    (decodedValue .uleb m base n).toNat = wideValue (memBytes m base n) := by
  rw [decodedValue, finishAcc, accumulated_eq_wideValue, BitVec.toNat_ofNat,
    Nat.mod_eq_of_lt (wideValue_lt_of_decodable h)]

/-- Settles O34: the slice is decodable, and its value is the accumulated groups. -/
theorem ulebReadDecodes : Obligations.UlebReadDecodes := by
  intro base len n s hidle hfits hlen hten hseq htenth
  have hdec : Decodable .uleb s.mem base n :=
    decodable_of_isSequence hten hseq fun hn => (tenthOk_uleb_iff _).2 ((Nat.mod_le _ _).trans (htenth hn))
  exact ⟨_, readFrom_of_decodable hidle hfits hlen hdec, rfl, toNat_ofNat_four hten, rfl, rfl,
    decodedValue_uleb_toNat hdec, rfl, rfl, rfl, rfl, rfl, rfl, rfl, rfl, rfl, rfl⟩

/-! ## The length returned -/

theorem writeInto_ok_room {v : Variant} {base cap : Nat} {s t : State} (h : writeInto v base cap s = .next t)
    (hstat : t.stat = 0) : (encodeBytes v s.c.val).length ≤ cap := by
  obtain ⟨-, -, -, -, ⟨-, rfl⟩ | ⟨hroom, -⟩⟩ := writeInto_next h
  · cases hstat
  · exact hroom

/-- Settles O54: a `WRITE_INTO` returns the length of the encoding it had room for, a `READ_FROM` that of a decodable slice. -/
theorem returnedLengthInRange : Obligations.ReturnedLengthInRange := by
  intro v base size s t h hstat
  rw [exec_writeInstr, exec_readInstr] at h
  obtain h | h := h
  · obtain ⟨hpos, hten⟩ := encodeBytes_length v s.c.val
    rw [(writeInto_ok h hstat).1]
    exact ⟨hpos, hten, writeInto_ok_room h hstat⟩
  · obtain ⟨-, hlen, hdec, -⟩ := readFrom_ok_decodable h hstat
    exact ⟨hdec.pos, hdec.le_ten, hlen⟩

/-! ## Construction and extraction -/

theorem returnOk_of_idle {s : State} (h : s.phase = .idle) : returnOk s = { s with stat := 0 } := by
  rw [returnOk, ← h]
  rfl

/-- Settles O11: an idle block stays idle, so only the codec and `STAT` change. -/
theorem ulebFromHoldsOperand : Obligations.UlebFromHoldsOperand := fun x s hidle =>
  (construct_of_idle .uleb x hidle).trans (congrArg _ (returnOk_of_idle (s := holdCodec .uleb x s) hidle))

/-- Settles O13: the guard is met, by hypothesis or by the construction just done, and only `RVAL` and `STAT` are written. -/
theorem ulebValueDelivers : Obligations.UlebValueDelivers := by
  refine ⟨fun s hidle hvld htag => ?_, fun x s t h => ?_⟩
  · exact (extractValue_of_codec hidle hvld htag).trans
      (congrArg _ (returnOk_of_idle (s := { s with rval := s.c.val }) hidle))
  · obtain ⟨-, rfl⟩ := construct_next h
    exact extractValue_of_codec (s := returnOk (holdCodec .uleb x s)) rfl rfl rfl

end Sys2Proof.Machine
end

section
/-! SUPPORT. Family 42_sleb128: the round trip and the encoder in the signed variant, the signed value the decoder gives, and what
one variant's decoder makes of the other's canonical bytes. -/

namespace Sys2Proof.Machine

/-! ## The signed cases of what is proved of a variant -/

/-- Settles O42: the signed case of the round trip. -/
theorem slebRoundTrip : Obligations.SlebRoundTrip := from_write_read .sleb

/-- Settles O30: the signed case of a `WRITE_INTO` with room. -/
theorem slebWriteCanonical : Obligations.SlebWriteCanonical := write_canonical .sleb

/-- Settles O12: an idle block stays idle, so only the codec and `STAT` change. -/
theorem slebFromHoldsOperand : Obligations.SlebFromHoldsOperand := fun x s hidle =>
  (construct_of_idle .sleb x hidle).trans (congrArg _ (returnOk_of_idle (s := holdCodec .sleb x s) hidle))

/-- What R106 and R126 say of a variant: a `VALUE` writes `RVAL` and `STAT` only. -/
theorem exec_valueInstr_of_codec {v : Variant} {s : State} (hidle : s.phase = .idle) (hvld : s.c.vld = true)
    (htag : s.c.tag = v) : exec (valueInstr v) s = .next { s with rval := s.c.val, stat := 0 } := by
  rw [exec_valueInstr, extractValue_of_codec hidle hvld htag, returnOk_of_idle (s := { s with rval := s.c.val }) hidle]

/-- A construction leaves `STAT = 0`, so a `VALUE` after it writes `RVAL` only. -/
theorem exec_valueInstr_of_construct {v : Variant} {x : Word} {s t : State} (h : construct v x s = .next t) :
    exec (valueInstr v) t = .next { t with rval := x } := by
  obtain ⟨-, rfl⟩ := construct_next h
  exact exec_valueInstr_of_codec rfl rfl rfl

/-- Settles O14: the guard is met, by hypothesis or by the construction just done, and the other variant's guard is not. -/
theorem slebValueDelivers : Obligations.SlebValueDelivers := by
  refine ⟨fun s hidle hvld htag => exec_valueInstr_of_codec hidle hvld htag,
    fun x s t h => exec_valueInstr_of_construct h, fun s hidle hvld htag => ?_⟩
  exact guarded_of_eq_some (codecGuard_of_wrongVariant hidle hvld (by simp [htag])) _

/-! ## The signed value of a sequence -/

/-- The last payload counts in two's complement (R65). -/
theorem signedValue_append_singleton (l : List Byte) (b : Byte) :
    signedValue (l ++ [b]) = wideValue l + (payloadOf b).toInt * 2 ^ (7 * l.length) := by
  have hpow : (2 : Int) ^ (7 * (l.length + 1)) = 2 ^ (7 * l.length) * 128 := by rw [Nat.mul_succ, pow_add]; rfl
  have hsign : (payloadOf b).toInt = (payloadOf b).toNat - if groupSign (payloadOf b) then 128 else 0 := by
    rw [BitVec.toInt_eq_msb_cond, groupSign, BitVec.msb_eq_getLsbD_last]
    split <;> simp
  rw [signedValue, lastSign, List.getLastD_concat, List.length_append, List.length_singleton, hpow,
    wideValue_append_singleton, ← payloadOf_toNat, hsign]
  split <;> push_cast <;> ring

/-- Where the accumulator has zeros from bit `7n` on, sign extension subtracts `2^(7n)` (R90). -/
theorem extendSign_eq_sub {acc : Word} {n : Nat} (p : Group) (h : acc.toNat < 2 ^ (7 * n)) :
    extendSign acc n p = acc - if groupSign p then BitVec.twoPow 64 (7 * n) else 0 := by
  have hdisjoint : acc &&& (ones64 <<< (7 * n)) = 0#64 := by
    refine BitVec.eq_of_getLsbD_eq fun j hj => ?_
    rw [BitVec.getLsbD_and, BitVec.getLsbD_shiftLeft, BitVec.getLsbD_zero]
    by_cases hlow : j < 7 * n
    · simp [hlow]
    · simp [toNat_lt_two_pow_iff.1 h j (by omega) hj]
  have hones : ones64 <<< (7 * n) = -BitVec.twoPow 64 (7 * n) := by
    rw [BitVec.shiftLeft_eq_mul_twoPow, ones64, ← BitVec.neg_one_eq_allOnes, BitVec.neg_mul, BitVec.one_mul]
  have hextend : acc ||| (ones64 <<< (7 * n)) = acc - BitVec.twoPow 64 (7 * n) := by
    rw [← BitVec.add_eq_or_of_and_eq_zero _ _ hdisjoint, hones, BitVec.sub_eq_add_neg]
  rw [extendSign, hextend]
  by_cases hn : 7 * n < 64
  · cases groupSign p <;> simp [hn]
  · have hzero : BitVec.twoPow 64 (7 * n) = 0#64 := by rw [BitVec.twoPow_eq, BitVec.shiftLeft_eq_zero (by omega)]
    simp [hn, hzero]

theorem lastSign_memBytes_succ (m : Memory) (base n : Nat) :
    lastSign (memBytes m base (n + 1)) = groupSign (payloadOf (memRead m (base + n))) := by
  rw [lastSign, memBytes_succ, List.getLastD_concat]

/-- The signed decoder gives the signed value, in 64 bits. -/
theorem decodedValue_sleb_eq_ofInt {m : Memory} {base n : Nat} (hpos : 1 ≤ n) :
    decodedValue .sleb m base n = BitVec.ofInt 64 (signedValue (memBytes m base n)) := by
  obtain ⟨n, rfl⟩ := Nat.exists_eq_add_of_le' hpos
  have hpow : BitVec.twoPow 64 (7 * (n + 1)) = BitVec.ofInt 64 (2 ^ (7 * (n + 1)) : Nat) := by
    rw [BitVec.ofInt_natCast]
    exact BitVec.eq_of_toNat_eq (by rw [BitVec.toNat_twoPow, BitVec.toNat_ofNat])
  rw [decodedValue, finishAcc, extendSign_eq_sub _ (accumulated_lt m base _), accumulated_eq_wideValue, signedValue,
    lastSign_memBytes_succ, memBytes_length, Nat.add_sub_cancel, hpow]
  split
  · rw [Int.sub_eq_add_neg, BitVec.ofInt_add, BitVec.ofInt_neg, BitVec.ofInt_natCast, BitVec.sub_eq_add_neg]
    rfl
  · simp

theorem tenthOk_sleb_iff (p : Group) : tenthOk .sleb p = true ↔ p.toInt = 0 ∨ p.toInt = -1 := by
  revert p
  decide

/-- The signed value of a slice that is decodable in the signed variant fits 64 bits. -/
theorem signedValue_range_of_decodable {m : Memory} {base n : Nat} (h : Decodable .sleb m base n) :
    -2 ^ 63 ≤ signedValue (memBytes m base n) ∧ signedValue (memBytes m base n) < 2 ^ 63 := by
  obtain ⟨n, rfl⟩ := Nat.exists_eq_add_of_le' h.pos
  have hwide := wideValue_lt (memBytes m base n)
  rw [memBytes_length] at hwide
  rw [memBytes_succ, signedValue_append_singleton, memBytes_length]
  obtain hten | hlt := Nat.eq_or_lt_of_le h.le_ten
  · obtain rfl : n = 9 := Nat.succ.inj hten
    have htenth := (tenthOk_sleb_iff _).1 (h.tenth rfl)
    omega
  · have hlow := BitVec.le_toInt (payloadOf (memRead m (base + n)))
    have hhigh := BitVec.toInt_lt (x := payloadOf (memRead m (base + n)))
    have hpow : 2 ^ (7 * n) ≤ 2 ^ 56 := Nat.pow_le_pow_right (by omega) (by omega)
    have hnonneg : (0 : Int) ≤ 2 ^ (7 * n) := by positivity
    have hlow := Int.mul_le_mul_of_nonneg_right hlow hnonneg
    have hhigh := Int.mul_le_mul_of_nonneg_right (Int.le_sub_one_of_lt hhigh) hnonneg
    zify at hwide hpow
    omega

theorem decodedValue_sleb_toInt {m : Memory} {base n : Nat} (h : Decodable .sleb m base n) :
    (decodedValue .sleb m base n).toInt = signedValue (memBytes m base n) := by
  obtain ⟨hlow, hhigh⟩ := signedValue_range_of_decodable h
  rw [decodedValue_sleb_eq_ofInt h.pos, BitVec.toInt_ofInt]
  exact Int.bmod_eq_of_le (by omega) (by omega)

/-- Settles O35: the slice is decodable, and its value is the signed value. -/
theorem slebReadDecodes : Obligations.SlebReadDecodes := by
  intro base len n s hidle hfits hlen hten hseq htenth
  have hdec : Decodable .sleb s.mem base n := decodable_of_isSequence hten hseq fun hn => by
    obtain hbyte | hbyte := htenth hn <;> rw [hbyte] <;> decide
  exact ⟨_, readFrom_of_decodable hidle hfits hlen hdec, rfl, toNat_ofNat_four hten, rfl, rfl,
    decodedValue_sleb_toInt hdec, rfl, rfl, rfl, rfl, rfl, rfl, rfl, rfl, rfl, rfl⟩

/-! ## One variant's canonical bytes read by the other's decoder -/

theorem holdsCanonical_of_memBytes {v : Variant} {x : Word} {m : Memory} {base : Nat}
    (h : memBytes m base (encLen v x) = canonical v x) : holdsCanonical v x m base := by
  intro k hk
  rw [← h]
  simp [memBytes, hk]

/-- The payload bits do not depend on the variant of the decoder. -/
theorem decodedValue_mod_eq (v w : Variant) (m : Memory) (base n : Nat) :
    (decodedValue v m base n).toNat % 2 ^ (7 * n) = (decodedValue w m base n).toNat % 2 ^ (7 * n) := by
  refine Nat.eq_of_testBit_eq fun j => ?_
  rw [Nat.testBit_mod_two_pow, Nat.testBit_mod_two_pow, BitVec.testBit_toNat, BitVec.testBit_toNat]
  obtain hj | hj := Nat.lt_or_ge j 64
  · rw [decodedValue_getLsbD _ _ _ _ hj, decodedValue_getLsbD _ _ _ _ hj]
    split
    case isTrue => rfl
    case isFalse hlow => rw [decide_eq_false hlow, Bool.false_and, Bool.false_and]
  · rw [BitVec.getLsbD_of_ge _ _ hj, BitVec.getLsbD_of_ge _ _ hj]

/-- A terminator in range at index 9 repeats bit 63 of the value (R73). -/
theorem tenth_terminator {v : Variant} {b : Byte} (hcont : contOf b = false) (h : tenthOk v (payloadOf b) = true) :
    b = if b.getLsbD 0 then (if v = .sleb then 0x7F#8 else 0x01#8) else 0x00#8 := by
  revert b
  cases v <;> decide

/-- The unsigned range of `n` groups holds the nonnegative half of the signed one. -/
theorem inRange_uleb_of_sleb {x : Word} {n : Nat} (hsign : 0 ≤ x.toInt) (h : inRange .sleb x n = true) :
    inRange .uleb x n = true := by
  have hhalf : 2 ^ (7 * n - 1) ≤ 2 ^ (7 * n) := Nat.pow_le_pow_right (by omega) (Nat.sub_le _ _)
  have hhigh := (inRange_sleb.1 h).2
  have hint := BitVec.toInt_eq_toNat_of_msb (BitVec.msb_eq_toInt ▸ decide_eq_false (Int.not_lt.2 hsign) : x.msb = false)
  rw [hint] at hhigh
  exact inRange_uleb.2 (by zify at hhalf ⊢; omega)

section
variable {v : Variant} {x : Word} {m : Memory} {base : Nat}

theorem holdsCanonical.tenth_byte (h : holdsCanonical v x m base) (hten : encLen v x = 10) :
    memRead m (base + 9) = if x.toInt < 0 then (if v = .sleb then 0x7F#8 else 0x01#8) else 0x00#8 := by
  have hbit : (memRead m (base + 9)).getLsbD 0 = decide (x.toInt < 0) := by
    rw [← BitVec.msb_eq_toInt, BitVec.msb_eq_getLsbD_last, ← h.decodedValue_eq, hten,
      decodedValue_getLsbD _ _ _ _ (by omega)]
    rfl
  have hcont := h.contOf_eq (k := 9) (by omega)
  rw [tenth_terminator (by simpa [hten] using hcont) (h.decodable.tenth hten), hbit]
  simp

/-- Where the tenth byte is in range for the decoder `w`, the canonical bytes of `x` in the variant `v` are read in full and
give a value in the range of their length that agrees with `x` in all their payload bits. -/
theorem holdsCanonical.read_agrees (w : Variant) {len : Nat} {s : State} (h : holdsCanonical v x s.mem base)
    (hidle : s.phase = .idle) (hfits : base + len ≤ 2 ^ s.aw) (hlen : encLen v x ≤ len)
    (htenth : encLen v x = 10 → tenthOk w (payloadOf (memRead s.mem (base + 9))) = true) :
    ∃ t y, exec (readInstr w base len) s = .next t ∧ t.stat = 0 ∧ t.c = { vld := true, tag := w, val := y } ∧
      t.rlen.toNat = encLen v x ∧ inRange w y (encLen v x) = true ∧
      y.toNat % 2 ^ (7 * encLen v x) = x.toNat % 2 ^ (7 * encLen v x) := by
  obtain ⟨hpos, hten, hcont, -⟩ := h.decodable
  have hmod := decodedValue_mod_eq w v s.mem base (encLen v x)
  rw [h.decodedValue_eq] at hmod
  rw [exec_readInstr, readFrom_of_decodable hidle hfits hlen ⟨hpos, hten, hcont, htenth⟩]
  exact ⟨_, _, rfl, rfl, rfl, toNat_ofNat_four hten, inRange_decodedValue hpos, hmod⟩

/-- Where the tenth byte is out of range for the decoder `w`, the canonical bytes of `x` overflow (R148). -/
theorem holdsCanonical.read_overflows (w : Variant) {len : Nat} {s : State} (h : holdsCanonical v x s.mem base)
    (hidle : s.phase = .idle) (hfits : base + len ≤ 2 ^ s.aw) (hlen : encLen v x ≤ len) (hten : encLen v x = 10)
    (hrange : outOfRange w 9 (memRead s.mem (base + 9)) = true) :
    ∃ t, exec (readInstr w base len) s = .next t ∧ t.stat = 3 := by
  have herr : decodeWindow w s.mem base len = .err .overflow :=
    decodeWindow_outOfRange (by omega) (fun k hk => by rw [h.contOf_eq (by omega), decide_eq_true (by omega)]) hrange
  rw [exec_readInstr, readFrom_of_err hidle hfits herr]
  exact ⟨_, rfl, rfl⟩

end

/-- Settles O43: the unsigned decoder gives the payload bits, which are all of `x` unless `x` is negative. -/
theorem signedBytesReadUnsigned : Obligations.SignedBytesReadUnsigned := by
  intro x base len s hidle hfits hlen hbytes
  have h : holdsCanonical .sleb x s.mem base := holdsCanonical_of_memBytes hbytes
  refine ⟨fun hsign => ?_, fun hsign hnine => ?_, fun hsign hten => ?_⟩
  · obtain ⟨t, y, hread, hstat, hc, hrlen, hrange, hmod⟩ := h.read_agrees .uleb hidle hfits hlen fun hten => by
      rw [h.tenth_byte hten, if_neg (Int.not_lt.2 hsign)]
      rfl
    have hfit := inRange_uleb_of_sleb hsign (inRange_encLen .sleb x)
    rw [Nat.mod_eq_of_lt (inRange_uleb.1 hrange), Nat.mod_eq_of_lt (inRange_uleb.1 hfit)] at hmod
    exact ⟨t, hread, hstat, BitVec.eq_of_toNat_eq hmod ▸ hc, hrlen⟩
  · obtain ⟨t, y, hread, hstat, hc, -, hrange, hmod⟩ := h.read_agrees .uleb hidle hfits hlen fun hten =>
      absurd hten (Nat.ne_of_lt (Nat.lt_succ_of_le hnine))
    have hsmall : y.toNat < 2 ^ 63 :=
      Nat.lt_of_lt_of_le (inRange_uleb.1 hrange) (Nat.pow_le_pow_right (by omega) (Nat.mul_le_mul_left 7 hnine))
    have hlarge := BitVec.toInt_neg_iff.1 hsign
    have hne : y ≠ x := by
      rintro rfl
      omega
    rw [Nat.mod_eq_of_lt (inRange_uleb.1 hrange)] at hmod
    refine ⟨t, hread, hstat, ?_⟩
    rw [hc]
    exact ⟨hmod, hne⟩
  · refine h.read_overflows .uleb hidle hfits hlen hten ?_
    rw [h.tenth_byte hten, if_pos hsign]
    rfl

/-- With bit 63 clear the two extensions to 70 bits agree, so at equal length the two encodings do. -/
theorem canonical_sleb_eq_uleb {x : Word} (hsign : 0 ≤ x.toInt) (hlen : slen x = ulen x) :
    canonical .sleb x = canonical .uleb x := by
  have hmsb : x.msb = false := BitVec.msb_eq_toInt.trans (decide_eq_false (Int.not_lt.2 hsign))
  have hwide : wide70 .sleb x = wide70 .uleb x := BitVec.signExtend_eq_setWidth_of_msb_false hmsb
  rw [canonical, canonical, encLen, encLen, hlen, hwide]

/-- Nine unsigned groups are the 63 bits below the sign. -/
theorem ulen_le_nine_iff {x : Word} : ulen x ≤ 9 ↔ 0 ≤ x.toInt := by
  rw [BitVec.toInt_pos_iff]
  constructor
  · intro hnine
    have hlt : x.toNat < 2 ^ 63 := Nat.lt_of_lt_of_le (inRange_uleb.1 (inRange_encLen .uleb x))
      (Nat.pow_le_pow_right (by omega) (Nat.mul_le_mul_left 7 hnine))
    omega
  · intro hsmall
    exact encLen_le (v := .uleb) (by omega) (inRange_uleb.2 (by omega))

theorem ulen_le_slen {x : Word} (hsign : 0 ≤ x.toInt) : ulen x ≤ slen x :=
  encLen_le (v := .uleb) (encLen_bounds .sleb x).1 (inRange_uleb_of_sleb hsign (inRange_encLen .sleb x))

/-- Settles O44: at equal lengths the bytes are the signed encoding of `x`. Otherwise the value read is negative, because a
nonnegative one would be all of `x`, which is outside the signed range of that length. -/
theorem unsignedBytesReadSigned : Obligations.UnsignedBytesReadSigned := by
  intro x base len s hidle hfits hlen hbytes
  have h : holdsCanonical .uleb x s.mem base := holdsCanonical_of_memBytes hbytes
  refine ⟨fun hsign hsame => ?_, fun hnine hpart => ?_, fun hten => ?_⟩
  · rw [← hsame] at hlen hbytes ⊢
    have hsigned : holdsCanonical .sleb x s.mem base :=
      holdsCanonical_of_memBytes (hbytes.trans (canonical_sleb_eq_uleb hsign hsame).symm)
    exact ⟨_, hsigned.readFrom_eq hidle hfits hlen, rfl, rfl, toNat_ofNat_four (encLen_bounds .sleb x).2⟩
  · have hsign : 0 ≤ x.toInt := ulen_le_nine_iff.1 hnine
    have hout : inRange .sleb x (ulen x) ≠ true := fun hin =>
      hpart ⟨hsign, Nat.le_antisymm (encLen_le (v := .sleb) (encLen_bounds .uleb x).1 hin) (ulen_le_slen hsign)⟩
    obtain ⟨t, y, hread, hstat, hc, -, hrange, hmod⟩ := h.read_agrees .sleb hidle hfits hlen fun hten =>
      absurd hten (Nat.ne_of_lt (Nat.lt_succ_of_le hnine))
    have hneg : y.toInt < 0 := by
      refine Int.not_le.1 fun hy => hout ?_
      rw [Nat.mod_eq_of_lt (inRange_uleb.1 (inRange_uleb_of_sleb hy hrange)),
        Nat.mod_eq_of_lt (inRange_uleb.1 (inRange_encLen .uleb x))] at hmod
      exact BitVec.eq_of_toNat_eq hmod ▸ hrange
    have hne : y ≠ x := by
      rintro rfl
      exact Int.not_lt.2 hsign hneg
    refine ⟨t, hread, hstat, ?_⟩
    rw [hc]
    exact ⟨hneg, hne⟩
  · have hneg : x.toInt < 0 := Int.not_le.1 fun hsign => absurd (ulen_le_nine_iff.2 hsign) (by omega)
    refine h.read_overflows .sleb hidle hfits hlen hten ?_
    rw [h.tenth_byte hten, if_pos hneg]
    rfl

end Sys2Proof.Machine
end

section
/-! SUPPORT. Family 60_exceptions: how a decode and an encode end with an error, what each error leaves, and what it tells the
host. -/

namespace Sys2Proof.Machine

/-! ## A decode that ends without a byte -/

theorem endOfWindow_of_le {s : State} (h : s.portLen ≤ s.idx.toNat) :
    endOfWindow s = raiseError .unexpectedEndOfBuffer s := if_pos h

theorem endOfWindow_of_lt {s : State} (h : s.idx.toNat < s.portLen) : endOfWindow s = raiseError .overflow s :=
  if_neg (Nat.not_le.2 h)

/-- A micro-step of a decode at a position it does not fetch from ends it (R93). -/
theorem step_of_position_closed {s : State} {rest : List Input} (hin : s.inputs = .tick :: rest)
    (hphase : s.phase = .dec) (hclosed : ¬positionOpen s = true) :
    step s = .next (endOfWindow { s with inputs := rest }) := by
  have hclosed' : ¬positionOpen { s with inputs := rest } = true := hclosed
  rw [step_of_inputs_cons hin, runInput, tick, if_neg hclosed']
  simp only [hphase]

/-- Settles O5: neither position is open, and the bound is tested first. -/
theorem decodeEndsWithoutFetch : Obligations.DecodeEndsWithoutFetch := by
  refine ⟨fun s rest hin hdec hlen => ?_, fun s rest hin hdec hlen hten => ?_⟩
  · have hclosed : ¬positionOpen s = true := fun hopen => Nat.not_lt.2 hlen (positionOpen_iff.1 hopen).1
    exact ⟨_, (step_of_position_closed hin hdec hclosed).trans (congrArg _ (endOfWindow_of_le hlen)), rfl⟩
  · have hclosed : ¬positionOpen s = true := fun hopen => Nat.ne_of_lt (positionOpen_iff.1 hopen).2 hten
    exact ⟨_, (step_of_position_closed hin hdec hclosed).trans (congrArg _ (endOfWindow_of_lt hlen)), rfl⟩

/-! ## A tenth byte out of range -/

theorem consumeByte_of_outOfRange {b : Byte} {s : State} (hopen : positionOpen s = true)
    (hrange : outOfRange s.mode s.idx.toNat b = true) : consumeByte b s = raiseError .overflow s := by
  rw [consumeByte, if_pos hopen, if_pos hrange]

/-- Settles O27: the range test comes before the byte is taken. -/
theorem tenthTerminatorOverflows : Obligations.TenthTerminatorOverflows := by
  intro p s hdec hidx hlen hpay
  have hopen : positionOpen s = true := positionOpen_iff.2 ⟨by omega, by omega⟩
  have hrange : outOfRange s.mode s.idx.toNat (mkByte false p) = true := by
    have hval : (mkByte false p).toNat = p.toNat := mkByte_toNat false p
    rw [hidx, outOfRange_nine_iff, hval]
    exact ⟨p.isLt, hpay⟩
  exact ⟨raiseError .overflow s,
    (byteStep_of_dec hdec _).trans (congrArg _ (consumeByte_of_outOfRange hopen hrange)), rfl⟩

/-! ## A `WRITE_INTO` without room -/

/-- A `WRITE_INTO` without room loses its window and raises `BufferTooSmall` (R50, R146). -/
theorem writeInto_of_no_room {v : Variant} {base cap : Nat} {s : State} (hidle : s.phase = .idle)
    (hvld : s.c.vld = true) (htag : s.c.tag = v) (hfits : base + cap ≤ 2 ^ s.aw) (hcap : cap < encLen v s.c.val) :
    writeInto v base cap s =
      .next (raiseError .bufferTooSmall (scrambleWindow base cap (forgetEncoder v s))) := by
  refine guarded_eq_next.2 ⟨writeGuard_eq_none.2 ⟨hidle, hvld, htag, hfits⟩, ?_⟩
  exact writeEffect_of_lt (by simpa [encodeBytes_eq_canonical] using hcap)

/-- Settles O32: what is lost of the memory is the window. -/
theorem writeTooSmall : Obligations.WriteTooSmall := by
  intro v base cap s hidle hvld htag hfits hcap
  rw [exec_writeInstr, writeInto_of_no_room hidle hvld htag hfits hcap]
  exact ⟨_, rfl, rfl, memRead_memScramble_outside _ _ _ _, rfl, rfl, rfl, rfl, rfl, rfl, rfl, rfl, rfl, rfl⟩

/-- Settles O33: the error left the codec and the idle block the retry needs, and ten bytes hold every encoding. -/
theorem retryAfterTooSmall : Obligations.RetryAfterTooSmall := by
  intro v base cap cap' s t h hstat hfits hcap
  have hroom : encLen v s.c.val ≤ cap' := hcap.elim id (encLen_bounds v s.c.val).2.trans
  rw [exec_writeInstr] at h
  obtain ⟨-, hvld, htag, -, ⟨-, rfl⟩ | ⟨-, rfl⟩⟩ := writeInto_next h
  · obtain ⟨u, hwrite, hok, hlen, -⟩ := write_canonical v base cap'
      (raiseError .bufferTooSmall (scrambleWindow base cap (forgetEncoder v s))) rfl hvld htag hfits hroom
    exact ⟨u, hwrite, hok, hlen⟩
  · cases hstat

/-! ## What the errors of a `READ_FROM` tell -/

/-- The four cases of R73: a slice is truncated, overlong, out of range at the tenth byte, or begins with a valid sequence. The
first byte with its continuation bit clear, among the first ten, tells which. -/
theorem slice_cases (v : Variant) (m : Memory) (base len : Nat) :
    (len ≤ 10 ∧ ∀ k, k < len → contOf (memRead m (base + k)) = true) ∨
    (11 ≤ len ∧ ∀ k, k < 10 → contOf (memRead m (base + k)) = true) ∨
    (10 ≤ len ∧ (∀ k, k < 9 → contOf (memRead m (base + k)) = true) ∧
      outOfRange v 9 (memRead m (base + 9)) = true) ∨
    (∃ n, n ≤ len ∧ Decodable v m base n) := by
  by_cases hterm : ∃ n, n < len ∧ n < 10 ∧ contOf (memRead m (base + n)) = false
  · obtain ⟨hlen, hten, hclear⟩ := Nat.find_spec hterm
    have hset (k : Nat) (hk : k < Nat.find hterm) : contOf (memRead m (base + k)) = true := by
      simpa [hk.trans hlen, hk.trans hten] using Nat.find_min hterm hk
    generalize Nat.find hterm = n at hlen hten hclear hset
    cases hrange : outOfRange v n (memRead m (base + n)) with
    | true =>
      obtain rfl : n = 9 := by simp_all [outOfRange]
      exact .inr (.inr (.inl ⟨hlen, hset, hrange⟩))
    | false =>
      refine .inr (.inr (.inr ⟨n + 1, hlen, by omega, hten, fun k hk => ?_, ?_⟩))
      · obtain hlt | rfl := Nat.lt_succ_iff_lt_or_eq.1 hk
        · simp [hset k hlt, hlt]
        · simp [hclear]
      · intro hn
        obtain rfl : n = 9 := by omega
        simpa [outOfRange, hclear] using hrange
  · have hset (k : Nat) (hk : k < len) (hten : k < 10) : contOf (memRead m (base + k)) = true := by
      simpa using fun h => hterm ⟨k, hk, hten, h⟩
    obtain hlen | hlen := Nat.lt_or_ge 10 len
    · exact .inr (.inl ⟨hlen, fun k hk => hset k (by omega) hk⟩)
    · exact .inl ⟨hlen, fun k hk => hset k hk (by omega)⟩

/-- A decode fails on a truncated slice, or with an `Overflow` that every longer slice that agrees with it gives too (R145). -/
theorem decodeWindow_err_cases {v : Variant} {m : Memory} {base len : Nat} {e : ErrorKind}
    (h : decodeWindow v m base len = .err e) :
    (e = .unexpectedEndOfBuffer ∧ len ≤ 10 ∧ ∀ k, k < len → contOf (memRead m (base + k)) = true) ∨
    (e = .overflow ∧ ∀ (m' : Memory) (len' : Nat), len ≤ len' →
      (∀ k, k < len → memRead m' (base + k) = memRead m (base + k)) →
      decodeWindow v m' base len' = .err .overflow) := by
  obtain ⟨hlen, hset⟩ | ⟨hlen, hset⟩ | ⟨hlen, hset, hrange⟩ | ⟨n, hlen, hdec⟩ := slice_cases v m base len
  · rw [decodeWindow_truncated hlen hset] at h
    exact .inl ⟨(Decoded.err.inj h).symm, hlen, hset⟩
  · rw [decodeWindow_overlong hlen hset] at h
    refine .inr ⟨(Decoded.err.inj h).symm, fun m' len' hle hsame => ?_⟩
    exact decodeWindow_overlong (by omega) fun k hk => by rw [hsame k (by omega), hset k hk]
  · rw [decodeWindow_outOfRange hlen hset hrange] at h
    refine .inr ⟨(Decoded.err.inj h).symm, fun m' len' hle hsame => ?_⟩
    exact decodeWindow_outOfRange (by omega) (fun k hk => by rw [hsame k (by omega), hset k hk])
      (by rw [hsame 9 (by omega), hrange])
  · rw [decodeWindow_of_decodable hdec hlen] at h
    cases h

/-- A `READ_FROM` that completes ends with `OK`, with `UnexpectedEndOfBuffer` on a truncated slice, or with an `Overflow` that is
the end of every decode of a longer slice too. -/
theorem readFrom_stat_cases {v : Variant} {base len : Nat} {s t : State} (h : readFrom v base len s = .next t) :
    t.stat = 0 ∨
    (t.stat = 2 ∧ len ≤ 10 ∧ ∀ k, k < len → contOf (memRead s.mem (base + k)) = true) ∨
    (t.stat = 3 ∧ ∀ (m : Memory) (len' : Nat), len ≤ len' →
      (∀ k, k < len → memRead m (base + k) = memRead s.mem (base + k)) →
      decodeWindow v m base len' = .err .overflow) := by
  obtain ⟨-, -, ⟨x, n, -, rfl⟩ | ⟨e, herr, rfl⟩⟩ := readFrom_next h
  · exact .inl rfl
  · obtain ⟨rfl, htruncated⟩ | ⟨rfl, hoverflow⟩ := decodeWindow_err_cases herr
    · exact .inr (.inl ⟨rfl, htruncated⟩)
    · exact .inr (.inr ⟨rfl, hoverflow⟩)

/-- A truncated slice with a zero byte after it is valid, in either variant. -/
theorem decodable_of_zero_after {v : Variant} {m : Memory} {base len : Nat} (hlen : len < 10)
    (hset : ∀ k, k < len → contOf (memRead m (base + k)) = true) :
    Decodable v (memWrite m (base + len) 0) base (len + 1) := by
  refine ⟨by omega, hlen, fun k hk => ?_, fun hten => ?_⟩
  · obtain hlt | rfl := Nat.lt_succ_iff_lt_or_eq.1 hk
    · rw [memRead_memWrite_ne _ _ (by omega), hset k hlt, decide_eq_true (by omega)]
    · rw [memRead_memWrite_same, decide_eq_false (by omega)]
      rfl
  · obtain rfl : len = 9 := by omega
    rw [memRead_memWrite_same]
    cases v <;> decide

/-- Settles O38: a zero byte makes a truncated slice valid, and what overflows does so within its first ten bytes. -/
theorem errorsTellExtendable : Obligations.ErrorsTellExtendable := by
  intro v base len s t h
  rw [exec_readInstr] at h
  obtain ⟨hidle, -⟩ := readFrom_next h
  obtain hstat | ⟨hstat, hlen, hset⟩ | ⟨hstat, hoverflow⟩ := readFrom_stat_cases h <;> rw [hstat]
  · exact ⟨nofun, nofun⟩
  · refine ⟨fun _ hspace => ?_, nofun⟩
    obtain hlt | rfl := Nat.lt_or_eq_of_le hlen
    · have hread := readFrom_of_decodable (len := len + 1) (s := withMem (memWrite s.mem (base + len) 0) s) hidle
        (Nat.le_trans (Nat.add_le_add_left hlt base) hspace) le_rfl (decodable_of_zero_after (v := v) hlt hset)
      exact .inr ⟨memWrite s.mem (base + len) 0, len + 1, _, Nat.lt_succ_self len,
        fun k hk => memRead_memWrite_ne _ _ (by omega), (exec_readInstr _ _ _ _).trans hread, rfl⟩
    · exact .inl ⟨rfl, hset⟩
  · refine ⟨nofun, fun _ m len' hle hfits hsame => ?_⟩
    have hread := readFrom_of_err (s := withMem m s) hidle hfits (hoverflow m len' hle hsame)
    exact ⟨_, (exec_readInstr _ _ _ _).trans hread, rfl⟩

/-! ## The status of each command -/

theorem execAccum_ne_fault (acc : Word) (idx : Nat) (b : Byte) (s : State) (f : Fault) :
    execAccum acc idx b s ≠ .fault f := by
  unfold execAccum
  split <;> nofun

theorem execSext_ne_fault (acc : Word) (n : Nat) (p : Group) (s : State) (f : Fault) :
    execSext acc n p s ≠ .fault f := by
  unfold execSext
  split <;> nofun

theorem byteStep_ne_fault (b : Byte) (s : State) (f : Fault) : byteStep b s ≠ .fault f := by
  unfold byteStep
  split <;> nofun

/-- No instruction faults (R144): a command completes or is refused by its guard. -/
theorem exec_ne_fault (i : Instr) (s : State) (f : Fault) : exec i s ≠ .fault f := by
  cases i with
  | uleb128From x => exact guarded_ne_fault
  | sleb128From x => exact guarded_ne_fault
  | uleb128WriteInto base cap => exact guarded_ne_fault
  | sleb128WriteInto base cap => exact guarded_ne_fault
  | uleb128ReadFrom base len => exact guarded_ne_fault
  | sleb128ReadFrom base len => exact guarded_ne_fault
  | uleb128Value => exact guarded_ne_fault
  | sleb128Value => exact guarded_ne_fault
  | chunkU rem => nofun
  | chunkS rem => nofun
  | accum acc idx b => exact execAccum_ne_fault acc idx b s f
  | sext acc n p => exact execSext_ne_fault acc n p s f
  | byteContinuation p => exact byteStep_ne_fault _ s f
  | byteTerminator p => exact byteStep_ne_fault _ s f

/-- Settles O53, by the ways each command can end. -/
theorem statusOfEachCommand : Obligations.StatusOfEachCommand := by
  refine ⟨fun v x s t h => ?_, fun v base cap s t h => ?_, fun v base len s t h => ?_, exec_ne_fault⟩
  · rw [exec_fromInstr, exec_valueInstr] at h
    obtain h | h := h
    · obtain ⟨-, rfl⟩ := construct_next h
      exact ⟨rfl, rfl⟩
    · obtain ⟨-, -, -, rfl⟩ := extractValue_next h
      exact ⟨rfl, rfl⟩
  · rw [exec_writeInstr] at h
    obtain ⟨-, -, -, -, ⟨-, rfl⟩ | ⟨-, rfl⟩⟩ := writeInto_next h
    · exact ⟨.inr rfl, rfl⟩
    · exact ⟨.inl rfl, rfl⟩
  · rw [exec_readInstr] at h
    have hidle : t.phase = .idle := by
      obtain ⟨-, -, ⟨x, n, -, rfl⟩ | ⟨e, -, rfl⟩⟩ := readFrom_next h
      · rfl
      · rfl
    exact ⟨(readFrom_stat_cases h).imp_right (Or.imp And.left And.left), hidle⟩

end Sys2Proof.Machine
end

section
/-! SUPPORT. Family 70_reset_and_hazards: the micro-sequencer is never stuck and refines `WRITE_INTO` and `READ_FROM`; the host's
reset and its accesses to its memory. -/

namespace Sys2Proof.Machine

/-! ## A micro-step, and a run of them -/

theorem tick_of_idle {s : State} (h : s.phase = .idle) : tick s = .next s := by
  simp only [tick, h]

theorem tick_of_enc {s : State} (h : s.phase = .enc) : tick s = .next (encTick s) := by
  simp only [tick, h]

/-- A micro-step of a decode consumes the byte at its position, or ends there as `consumeByte` does without looking at it. -/
theorem tick_of_dec {s : State} (h : s.phase = .dec) : tick s = .next (consumeByte (fetchByte s) s) := by
  by_cases hopen : positionOpen s = true
  · rw [tick_of_positionOpen h hopen, exec_decodeByte, byteStep_of_dec h]
  · rw [consumeByte, if_neg hopen]
    simp only [tick, h, hopen, Bool.false_eq_true, if_false]

/-- Settles O55, by the phase. -/
theorem microStepCompletes : Obligations.MicroStepCompletes := by
  intro s
  cases h : s.phase with
  | idle => exact ⟨_, tick_of_idle h⟩
  | enc => exact ⟨_, tick_of_enc h⟩
  | dec => exact ⟨_, tick_of_dec h⟩

theorem runTicks_of_idle (k : Nat) {s : State} (h : s.phase = .idle) : runTicks k s = .next s := by
  cases k with
  | zero => rfl
  | succ k => exact if_pos h

theorem runTicks_succ {k : Nat} {s t : State} (hrun : s.phase ≠ .idle) (htick : tick s = .next t) :
    runTicks (k + 1) s = runTicks k t := by
  rw [runTicks, if_neg hrun, htick]

/-! ## The encoder

Both levels meet one statement of what a `WRITE_INTO` ends with, which fixes all that R186 compares. -/

/-- What a `WRITE_INTO` of `C.VAL` into `[base, base + cap)` that starts in `s` ends with (R92, R102, R122). -/
def writeOutcome (v : Variant) (base cap : Nat) (s t : State) : Prop :=
  t.phase = .idle ∧ t.c = s.c ∧ t.rval = s.rval ∧ sameOutside base (min cap (encLen v s.c.val)) s t ∧
  ((encLen v s.c.val ≤ cap ∧ t.stat = 0 ∧ t.rlen.toNat = encLen v s.c.val ∧ holdsCanonical v s.c.val t.mem base) ∨
   (cap < encLen v s.c.val ∧ t.stat = 1))

theorem writeInto_outcome {v : Variant} {base cap : Nat} {s t : State} (h : writeInto v base cap s = .next t) :
    writeOutcome v base cap s t := by
  obtain ⟨-, -, -, -, hend⟩ := writeInto_next h
  rw [encodeBytes_eq_canonical, canonical_length] at hend
  obtain ⟨hcap, rfl⟩ | ⟨hroom, rfl⟩ := hend
  · refine ⟨rfl, rfl, rfl, fun a ha => ?_, .inr ⟨hcap, rfl⟩⟩
    exact memRead_memScramble_outside _ _ _ _ _ (by omega)
  · refine ⟨rfl, rfl, rfl, fun a ha => ?_,
      .inl ⟨hroom, rfl, toNat_ofNat_four (encLen_bounds v _).2, memWriteBytes_holdsCanonical v _ _ _⟩⟩
    exact memRead_memWriteBytes_outside _ _ _ _ (by rw [canonical_length]; omega)

/-- Two memories that hold the canonical encoding at `base` and are the same elsewhere read the same. -/
theorem sameMemory_of_holdsCanonical {v : Variant} {x : Word} {base : Nat} {s t u : State}
    (ht : holdsCanonical v x t.mem base) (hu : holdsCanonical v x u.mem base)
    (htout : sameOutside base (encLen v x) s t) (huout : sameOutside base (encLen v x) s u) : sameMemory t u := by
  intro a
  by_cases ha : base ≤ a ∧ a < base + encLen v x
  · obtain ⟨k, rfl⟩ := Nat.exists_eq_add_of_le ha.1
    have hk : k < encLen v x := by omega
    rw [ht k hk, hu k hk]
  · rw [htout a ha, huout a ha]

/-- Two ends of one `WRITE_INTO` agree in all that R186 compares. -/
theorem writeOutcome_agrees {v : Variant} {base cap : Nat} {s t u : State} (ht : writeOutcome v base cap s t)
    (hu : writeOutcome v base cap s u) :
    u.stat = t.stat ∧ u.c = t.c ∧ u.rval = t.rval ∧ (t.stat = 0 → u.rlen = t.rlen ∧ sameMemory t u) ∧
      sameOutside base cap t u := by
  obtain ⟨-, htc, htrval, htout, htend⟩ := ht
  obtain ⟨-, huc, hurval, huout, huend⟩ := hu
  have hout : sameOutside base cap t u := fun a ha => by rw [htout a (by omega), huout a (by omega)]
  obtain ⟨hroom, htstat, htlen, htmem⟩ | ⟨hcap, htstat⟩ := htend
  · obtain ⟨-, hustat, hulen, humem⟩ | ⟨hcap, -⟩ := huend
    · rw [Nat.min_eq_right hroom] at htout huout
      exact ⟨hustat.trans htstat.symm, huc.trans htc.symm, hurval.trans htrval.symm,
        fun _ => ⟨BitVec.eq_of_toNat_eq (hulen.trans htlen.symm),
          sameMemory_of_holdsCanonical htmem humem htout huout⟩, hout⟩
    · omega
  · obtain ⟨hroom, -⟩ | ⟨-, hustat⟩ := huend
    · omega
    · refine ⟨hustat.trans htstat.symm, huc.trans htc.symm, hurval.trans htrval.symm, fun hok => ?_, hout⟩
      rw [htstat] at hok
      cases hok

/-- A `WRITE_INTO` the sequencer accepts is an encode in progress with nothing written. -/
theorem startEncoder_encProgress {v : Variant} {base cap : Nat} {s t : State}
    (h : startEncoder v base cap s = .next t) : encProgress t := by
  obtain ⟨-, hvld, htag, hfits, rfl⟩ := startEncoder_next h
  exact ⟨hvld, htag, hfits, Nat.zero_le cap, (encLen_bounds v s.c.val).1, (remAfter_zero v s.c.val).symm,
    fun k hk => absurd hk k.not_lt_zero⟩

theorem encProgress.idx_lt {s : State} (h : encProgress s) : s.idx.toNat < encLen s.mode s.c.val := by
  obtain ⟨-, -, -, -, hlen, -⟩ := h
  exact hlen

/-- After one more chunk the bytes of the encoding are written up to and with the index (R91). -/
theorem emitChunk_bytes {s : State} (h : encProgress s) {k : Nat} (hk : k ≤ s.idx.toNat) :
    memRead (emitChunk (chunk s.mode s.rem) s).mem (s.portBase + k) = (canonical s.mode s.c.val).getD k 0 := by
  obtain ⟨-, -, -, -, hlen, hrem, hbytes⟩ := h
  rw [emitChunk_mem]
  obtain rfl | hlt := Nat.eq_or_lt_of_le hk
  · rw [memRead_memWrite_same, hrem, chunk_remAfter_byte hlen]
  · rw [memRead_memWrite_ne _ _ (by omega), hbytes k hlt]

/-- A chunk is written inside the window and before the end of the encoding. -/
theorem sameOutside_min_emitChunk {s : State} (h : encProgress s) (hcap : s.idx.toNat < s.portCap) (k : Chunk) :
    sameOutside s.portBase (min s.portCap (encLen s.mode s.c.val)) s (emitChunk k s) := by
  have hlen := h.idx_lt
  exact fun a ha => sameOutside_emitChunk k s a (by omega)

/-- No room: the encode ends with `BufferTooSmall`, the encoding being longer than the window. -/
theorem raiseError_writeOutcome {s : State} (h : encProgress s) (hcap : s.portCap ≤ s.idx.toNat) :
    writeOutcome s.mode s.portBase s.portCap s (raiseError .bufferTooSmall s) :=
  ⟨rfl, rfl, rfl, fun _ _ => rfl, .inr ⟨hcap.trans_lt h.idx_lt, rfl⟩⟩

/-- The last chunk completes the encoding. -/
theorem lastChunk_writeOutcome {s : State} (h : encProgress s) (hcap : s.idx.toNat < s.portCap)
    (hlast : (chunk s.mode s.rem).last = true) :
    writeOutcome s.mode s.portBase s.portCap s (returnLen (s.idx + 1) (emitChunk (chunk s.mode s.rem) s)) := by
  have hbytes (k : Nat) := emitChunk_bytes h (k := k)
  have hout := sameOutside_min_emitChunk h hcap (chunk s.mode s.rem)
  obtain ⟨-, -, -, -, hlen, hrem, -⟩ := h
  have hten := (encLen_bounds s.mode s.c.val).2
  have hend : s.idx.toNat + 1 = encLen s.mode s.c.val := (chunk_remAfter_last_iff hlen).1 (hrem ▸ hlast)
  refine ⟨rfl, rfl, rfl, hout, .inl ⟨by omega, rfl, ?_, fun k hk => hbytes k (by omega)⟩⟩
  rw [returnLen_rlen, idx_succ_toNat (by omega), hend]

/-- What the encode ends with after one more chunk, it ends with from before it. -/
theorem writeOutcome_of_emitChunk {s u : State} {k : Chunk} (h : encProgress s) (hcap : s.idx.toNat < s.portCap)
    (hu : writeOutcome s.mode s.portBase s.portCap (emitChunk k s) u) :
    writeOutcome s.mode s.portBase s.portCap s u := by
  obtain ⟨hidle, hc, hrval, hout, hend⟩ := hu
  exact ⟨hidle, hc, hrval, fun a ha => (hout a ha).trans (sameOutside_min_emitChunk h hcap k a ha), hend⟩

/-- An encode in progress ends as its `WRITE_INTO` does, one micro-step for each byte that is left being enough. -/
theorem runTicks_encode {k : Nat} {s : State} (henc : s.phase = .enc) (h : encProgress s)
    (hfuel : encLen s.mode s.c.val ≤ s.idx.toNat + k) :
    ∃ u, runTicks k s = .next u ∧ writeOutcome s.mode s.portBase s.portCap s u := by
  induction k generalizing s with
  | zero => exact absurd h.idx_lt (Nat.not_lt.2 hfuel)
  | succ k ih =>
    rw [runTicks_succ (by simp [henc]) (tick_of_enc henc)]
    obtain ⟨hcap, heq⟩ | ⟨hcap, hlast, heq⟩ | ⟨hcap, hmore, heq⟩ := encTick_cases s <;> rw [heq]
    · exact ⟨_, runTicks_of_idle k rfl, raiseError_writeOutcome h hcap⟩
    · exact ⟨_, runTicks_of_idle k rfl, lastChunk_writeOutcome h hcap hlast⟩
    · have hidx : (s.idx + 1).toNat = s.idx.toNat + 1 :=
        idx_succ_toNat (h.idx_lt.trans_le (encLen_bounds s.mode s.c.val).2)
      obtain ⟨u, hrun, hu⟩ := ih (s := emitChunk (chunk s.mode s.rem) s) henc (emitChunk_keeps_encProgress h hcap hmore)
        (by simp only [emitChunk_mode, emitChunk_c, emitChunk_idx, hidx]; omega)
      exact ⟨u, hrun, writeOutcome_of_emitChunk h hcap hu⟩

/-- Settles O45: the acceptance starts an encode in progress, which ends as the transaction level does. -/
theorem encoderRefines : Obligations.EncoderRefines := by
  intro v base cap s t h
  rw [exec_writeInstr] at h
  obtain ⟨hguard, -⟩ := guarded_eq_next.1 h
  have hstart : startEncoder v base cap s = .next _ := guarded_eq_next.2 ⟨hguard, rfl⟩
  obtain ⟨u, hrun, hu⟩ := runTicks_encode (k := 10) rfl (startEncoder_encProgress hstart)
    ((encLen_bounds v s.c.val).2.trans (Nat.le_add_left 10 0))
  exact ⟨_, u, (acceptCommand_writeInstr v base cap s).trans hstart, hrun, hu.1,
    writeOutcome_agrees (writeInto_outcome h) hu⟩

/-! ## The decoder

The same for a `READ_FROM`: what the decoder's loop gives fixes all that R186 compares. -/

/-- What a `READ_FROM` that starts in `s` and decodes `d` ends with (R93, R104, R124). -/
def readOutcome (v : Variant) (d : Decoded) (s t : State) : Prop :=
  t.phase = .idle ∧ t.rval = s.rval ∧ t.mem = s.mem ∧
  match d with
  | .ok x n => t.stat = 0 ∧ t.c = { vld := true, tag := v, val := x } ∧ t.rlen = BitVec.ofNat 4 n
  | .err e => t.stat = statCode e ∧ t.c = s.c

theorem readFrom_outcome {v : Variant} {base len : Nat} {s t : State} (h : readFrom v base len s = .next t) :
    readOutcome v (decodeWindow v s.mem base len) s t := by
  obtain ⟨-, -, ⟨x, n, hok, rfl⟩ | ⟨e, herr, rfl⟩⟩ := readFrom_next h
  · rw [hok]
    exact ⟨rfl, rfl, rfl, rfl, rfl, rfl⟩
  · rw [herr]
    exact ⟨rfl, rfl, rfl, rfl, rfl⟩

theorem statCode_ne_zero (e : ErrorKind) : statCode e ≠ 0 := by
  cases e <;> decide

/-- Two ends of one `READ_FROM` agree in all that R186 compares. -/
theorem readOutcome_agrees {v : Variant} {d : Decoded} {s t u : State} (ht : readOutcome v d s t)
    (hu : readOutcome v d s u) :
    u.stat = t.stat ∧ u.c = t.c ∧ u.rval = t.rval ∧ u.mem = t.mem ∧ (t.stat = 0 → u.rlen = t.rlen) := by
  obtain ⟨-, htrval, htmem, htend⟩ := ht
  obtain ⟨-, hurval, humem, huend⟩ := hu
  cases d with
  | ok x n =>
    obtain ⟨htstat, htc, htlen⟩ := htend
    obtain ⟨hustat, huc, hulen⟩ := huend
    exact ⟨hustat.trans htstat.symm, huc.trans htc.symm, hurval.trans htrval.symm, humem.trans htmem.symm,
      fun _ => hulen.trans htlen.symm⟩
  | err e =>
    obtain ⟨htstat, htc⟩ := htend
    obtain ⟨hustat, huc⟩ := huend
    exact ⟨hustat.trans htstat.symm, huc.trans htc.symm, hurval.trans htrval.symm, humem.trans htmem.symm,
      fun hok => absurd (htstat.symm.trans hok) (statCode_ne_zero e)⟩

/-- What the decoder's loop makes of the rest of a running decode, `left` positions before the eleventh. -/
def decodeRest (left : Nat) (s : State) : Decoded :=
  decodeLoop s.mode s.mem s.portBase s.portLen left s.idx.toNat s.acc

/-- The loop's next pass, on the byte the micro-step fetches. -/
theorem decodeRest_succ (left : Nat) (s : State) :
    decodeRest (left + 1) s =
      if s.portLen ≤ s.idx.toNat then .err .unexpectedEndOfBuffer
      else if outOfRange s.mode s.idx.toNat (fetchByte s) then .err .overflow
      else if contOf (fetchByte s) then
        decodeLoop s.mode s.mem s.portBase s.portLen left (s.idx.toNat + 1) (accumulate s.acc s.idx.toNat (fetchByte s))
      else
        .ok (finishAcc s.mode (accumulate s.acc s.idx.toNat (fetchByte s)) (s.idx.toNat + 1)
          (payloadOf (fetchByte s))) (s.idx.toNat + 1) := rfl

theorem raiseError_readOutcome (v : Variant) (e : ErrorKind) (s : State) :
    readOutcome v (.err e) s (raiseError e s) := ⟨rfl, rfl, rfl, rfl, rfl⟩

/-- A running decode ends as its loop does, after one micro-step for each position that is left and one more. -/
theorem runTicks_decode {left : Nat} {s : State} (hdec : s.phase = .dec) (hleft : s.idx.toNat + left = 10) :
    ∃ u, runTicks (left + 1) s = .next u ∧ readOutcome s.mode (decodeRest left s) s u := by
  induction left generalizing s with
  | zero =>
    rw [runTicks_succ (by simp [hdec]) (tick_of_dec hdec)]
    obtain ⟨hlen, heq⟩ | ⟨hlen, -, heq⟩ | ⟨-, hten, -⟩ | ⟨-, hten, -⟩ | ⟨-, hten, -⟩ :=
      consumeByte_cases (fetchByte s) s
    · rw [heq, decodeRest, decodeLoop, if_pos hlen]
      exact ⟨_, rfl, raiseError_readOutcome _ _ s⟩
    · rw [heq, decodeRest, decodeLoop, if_neg (Nat.not_le.2 hlen)]
      exact ⟨_, rfl, raiseError_readOutcome _ _ s⟩
    all_goals omega
  | succ left ih =>
    rw [runTicks_succ (by simp [hdec]) (tick_of_dec hdec), decodeRest_succ]
    obtain ⟨hlen, heq⟩ | ⟨-, hten, -⟩ | ⟨hlen, -, hrange, heq⟩ | ⟨hlen, hten, hrange, hcont, heq⟩ |
      ⟨hlen, hten, hrange, hterm, heq⟩ := consumeByte_cases (fetchByte s) s
    · rw [heq, if_pos hlen]
      exact ⟨_, runTicks_of_idle _ rfl, raiseError_readOutcome _ _ s⟩
    · omega
    · rw [heq, if_neg (Nat.not_le.2 hlen), if_pos hrange]
      exact ⟨_, runTicks_of_idle _ rfl, raiseError_readOutcome _ _ s⟩
    · have hidx : (s.idx + 1).toNat = s.idx.toNat + 1 := idx_succ_toNat hten
      obtain ⟨u, hrun, hu⟩ := ih (s := takeByte (fetchByte s) s) hdec (by rw [takeByte_idx, hidx]; omega)
      rw [decodeRest, takeByte_idx, hidx] at hu
      rw [heq, if_neg (Nat.not_le.2 hlen), hrange, hcont]
      exact ⟨u, hrun, hu⟩
    · have hidx : (s.idx + 1).toNat = s.idx.toNat + 1 := idx_succ_toNat hten
      rw [heq, if_neg (Nat.not_le.2 hlen), hrange, hterm, ← hidx]
      exact ⟨_, runTicks_of_idle _ rfl, rfl, rfl, rfl, rfl, rfl,
        ((BitVec.ofNat_toNat 4 _).trans (BitVec.setWidth_eq _)).symm⟩

/-- Settles O46: the acceptance starts a decode at index 0, which ends as the transaction level does. -/
theorem decoderRefines : Obligations.DecoderRefines := by
  intro v base len s t h
  rw [exec_readInstr] at h
  obtain ⟨hguard, -⟩ := guarded_eq_next.1 h
  obtain ⟨u, hrun, hu⟩ := runTicks_decode (left := 10)
    (s := { s with mode := v, acc := 0, idx := 0, phase := .dec, portBase := base, portLen := len }) rfl rfl
  have hstart : startDecoder v base len s = .next _ := guarded_eq_next.2 ⟨hguard, rfl⟩
  exact ⟨_, u, (acceptCommand_readInstr v base len s).trans hstart, hrun, hu.1,
    readOutcome_agrees (readFrom_outcome h) hu⟩

/-! ## No move, and the host's moves -/

/-- Settles O2: the block acts on a move of the host only. -/
theorem stepWithoutMoveIsIdle : Obligations.StepWithoutMoveIsIdle := by
  intro s h
  rw [step, h]

/-- A reset that cuts no `WRITE_INTO` leaves the memory alone (R170). -/
theorem cutWindow_of_not_enc {s : State} (h : s.phase ≠ .enc) : cutWindow s = s.mem := by
  cases hphase : s.phase with
  | idle => simp only [cutWindow, hphase]
  | enc => exact absurd hphase h
  | dec => simp only [cutWindow, hphase]

/-- A reset that cuts a `WRITE_INTO` leaves all but its window alone (R171). -/
theorem memRead_cutWindow_outside {s : State} (h : s.phase = .enc) {a : Nat}
    (ha : ¬(s.portBase ≤ a ∧ a < s.portBase + s.portCap)) : memRead (cutWindow s) a = memRead s.mem a := by
  simp only [cutWindow, h]
  exact memRead_memScramble_outside _ _ _ _ _ ha

/-- Settles O58: the reset writes the three registers, and the memory it leaves is `cutWindow`. -/
theorem resetMove : Obligations.ResetMove := by
  intro s rest hin
  refine ⟨resetBlock { s with inputs := rest }, step_of_inputs_cons hin, rfl, rfl, rfl, rfl, fun hphase => ?_,
    fun henc a ha => ?_, rfl, rfl, rfl, rfl, rfl⟩
  · exact cutWindow_of_not_enc (s := { s with inputs := rest }) hphase
  · exact memRead_cutWindow_outside (s := { s with inputs := rest }) henc ha

theorem ownedForWrite_of_idle {s : State} (h : s.phase = .idle) (a : Nat) : ownedForWrite s a = false := by
  simp only [ownedForWrite, h]

/-- The block owns the window of the running command against a write (R176). -/
theorem ownedForWrite_of_window {s : State} {a : Nat} (hbase : s.portBase ≤ a)
    (h : s.phase = .enc ∧ a < s.portBase + s.portCap ∨ s.phase = .dec ∧ a < s.portBase + s.portLen) :
    ownedForWrite s a = true := by
  obtain ⟨hphase, ha⟩ | ⟨hphase, ha⟩ := h
  · simp only [ownedForWrite, hphase, inWindow, decide_eq_true (And.intro hbase ha)]
  · simp only [ownedForWrite, hphase, inWindow, decide_eq_true (And.intro hbase ha)]

/-- The block owns the destination window of a running `WRITE_INTO` against a read (R176). -/
theorem ownedForRead_of_window {s : State} {a : Nat} (hbase : s.portBase ≤ a) (henc : s.phase = .enc)
    (ha : a < s.portBase + s.portCap) : ownedForRead s a = true := by
  simp only [ownedForRead, henc, inWindow, decide_eq_true (And.intro hbase ha)]

theorem hostWrite_of_not_owned {a : Nat} (b : Byte) {s : State} (ha : a < 2 ^ s.aw) (h : ownedForWrite s a = false) :
    hostWrite a b s = .next { s with mem := memWrite s.mem a b } := by
  rw [hostWrite, if_neg (Nat.not_le.2 ha), h]
  rfl

theorem hostWrite_of_owned {a : Nat} (b : Byte) {s : State} (ha : a < 2 ^ s.aw) (h : ownedForWrite s a = true) :
    hostWrite a b s = .refused .windowOwned := by
  rw [hostWrite, if_neg (Nat.not_le.2 ha), if_pos h]

theorem hostRead_of_owned {a : Nat} {s : State} (ha : a < 2 ^ s.aw) (h : ownedForRead s a = true) :
    hostRead a s = .refused .windowOwned := by
  rw [hostRead, if_neg (Nat.not_le.2 ha), if_pos h]

/-- Settles O59: the address is tested first, then whether the running command owns it. -/
theorem hostKeepsOffWindow : Obligations.HostKeepsOffWindow := by
  refine ⟨fun s rest a b hin hidle ha => ?_, fun s rest a b hin ha hbase hwindow => ?_,
    fun s rest a hin ha hbase henc hcap => ?_, fun s rest a b hin ha => ?_⟩
  · refine ⟨{ s with inputs := rest, mem := memWrite s.mem a b }, ?_, memRead_memWrite_same _ _ _,
      fun a' ha' => memRead_memWrite_ne _ _ (by omega), rfl⟩
    exact (step_of_inputs_cons hin).trans
      (hostWrite_of_not_owned b (s := { s with inputs := rest }) ha (ownedForWrite_of_idle hidle a))
  · exact (step_of_inputs_cons hin).trans
      (hostWrite_of_owned b (s := { s with inputs := rest }) ha (ownedForWrite_of_window hbase hwindow))
  · exact (step_of_inputs_cons hin).trans
      (hostRead_of_owned (s := { s with inputs := rest }) ha (ownedForRead_of_window hbase henc hcap))
  · obtain hin | hin := hin
    · exact (step_of_inputs_cons hin).trans (if_pos ha)
    · exact (step_of_inputs_cons hin).trans (if_pos ha)

end Sys2Proof.Machine
end
